-- ==== Sys2Proof/Word.lean ====
section
/-! DEFINITION. The carriers the spec's widths name (00_scope.md R12, R13; 30_encoding.md R70): the byte every
register, datum and vector is, the 16-bit transaction word, and the two chip identities of `T[15]`. -/

namespace Sys2Proof

/-- R12: every register, port datum and vector is 8 bits wide. -/
abbrev Byte := BitVec 8

/-- R70: the 16-bit transaction word `T`. -/
abbrev TxnWord := BitVec 16

/-- R2: the block holds exactly one master chip `M` and one slave chip `S`. -/
inductive ChipId where
  | master
  | slave
  deriving DecidableEq, Repr

/-- The chip that is not `c`. -/
def ChipId.other : ChipId → ChipId
  | .master => .slave
  | .slave => .master

end Sys2Proof
end

