-- ==== Sys2Proof/Config.lean ====
section
/-! DEFINITION. The implementation parameters of 00_scope.md section 3 (R7 to R11): what an implementation fixes and
the source leaves open. A model takes each as an argument: `Config` is carried in the machine's state, where no step
changes it, so a statement over every state holds for every value of the parameters (log entry 9). -/

namespace Sys2Proof

/-- R7, parameter `CMD_ENC`: the five constants the command port decodes. -/
structure CmdEnc where
  /-- the "initialization bit" -/
  init : Byte
  /-- the "needs mode word" bit -/
  ic4 : Byte
  /-- "read pending-request register" -/
  rdIrr : Byte
  /-- "read in-service register" -/
  rdIsr : Byte
  /-- "end of interrupt", non-specific -/
  eoi : Byte
  deriving DecidableEq, Repr

/-- R10, parameter `PORT_MAP`: the block's four addresses in the host's I/O port space, whose width belongs to the
host (R50). -/
structure PortMap where
  masterCmd : Nat
  masterData : Nat
  slaveCmd : Nat
  slaveData : Nat
  deriving DecidableEq, Repr

/-- The parameters R7 to R10 of one implementation. -/
structure Config where
  /-- `CMD_ENC` (R7) -/
  cmd : CmdEnc
  /-- `ICW1_REQUIRE_IC4` (R8) -/
  requireIc4 : Bool
  /-- `MODE_WORD` (R9) -/
  modeWord : Byte
  /-- `PORT_MAP` (R10) -/
  ports : PortMap
  deriving DecidableEq, Repr

/-- R11, parameter `RESET_REGS(c)`: the construction values the source does not state, for one chip. -/
structure ResetRegs where
  imr : Byte
  offset : Byte
  cascadeLine : Byte
  latchedStatus : Byte
  deriving DecidableEq, Repr

/-- The defaults of R7 to R10. PRESUMED (log entries 5 and 8: the spec takes the command bytes and the ports from general
knowledge) and DESIGN CHOICE (log entries 6 and 7). -/
def Config.default : Config where
  cmd := { init := 0x10#8, ic4 := 0x01#8, rdIrr := 0x0A#8, rdIsr := 0x0B#8, eoi := 0x20#8 }
  requireIc4 := false
  modeWord := 0x01#8
  ports := { masterCmd := 0x20, masterData := 0x21, slaveCmd := 0xA0, slaveData := 0xA1 }

/-- DESIGN CHOICE (log entry 3), unsafe: the spec leaves `RESET_REGS` open (R11); the model names zero for both chips. -/
def ResetRegs.zero : ResetRegs where
  imr := 0x00#8
  offset := 0x00#8
  cascadeLine := 0x00#8
  latchedStatus := 0x00#8

/-- One of the eight bytes with a single bit set. -/
def isSingleBit (b : Byte) : Bool :=
  [0x01#8, 0x02#8, 0x04#8, 0x08#8, 0x10#8, 0x20#8, 0x40#8, 0x80#8].contains b

/-- R7: "`INIT` and `IC4` are single, distinct bits. `RD_IRR`, `RD_ISR` and `EOI` are distinct, and none of them has
the `INIT` bit set." -/
def CmdEnc.wf (e : CmdEnc) : Bool :=
  isSingleBit e.init && isSingleBit e.ic4 && e.init != e.ic4 &&
  e.rdIrr != e.rdIsr && e.rdIrr != e.eoi && e.rdIsr != e.eoi &&
  e.rdIrr &&& e.init == 0#8 && e.rdIsr &&& e.init == 0#8 && e.eoi &&& e.init == 0#8

/-- R10: "The four addresses must be distinct". -/
def PortMap.wf (m : PortMap) : Bool :=
  m.masterCmd != m.masterData && m.masterCmd != m.slaveCmd && m.masterCmd != m.slaveData &&
  m.masterData != m.slaveCmd && m.masterData != m.slaveData && m.slaveCmd != m.slaveData

/-- The constraints R7 and R10 put on the parameters. -/
def Config.wf (k : Config) : Bool := k.cmd.wf && k.ports.wf

end Sys2Proof
end

