-- ==== Sys2Proof/Syntax.lean ====
section
/-! DEFINITION. The operation forms of the block, one constructor per row of the opcode map (30_encoding.md R85). -/

namespace Sys2Proof

/-- One operation form. `c` is the addressed chip (`T[15]`); a byte operand is `T[7:0]`: the command or data byte
written, the IRQ line, or the vector (R70, R72). -/
inductive Instr where
  /-- `ICW1`: accepted initialization command byte `b` (R101) -/
  | icw1 (c : ChipId) (b : Byte)
  /-- `ICW1.BAD`: initialization command byte `b` the block does not support (R102) -/
  | icw1Bad (c : ChipId) (b : Byte)
  /-- `OCW3.RIRR`: latch the request register (R103) -/
  | ocw3Rirr (c : ChipId)
  /-- `OCW3.RISR`: latch the in-service register (R104) -/
  | ocw3Risr (c : ChipId)
  /-- `OCW2.EOI`: non-specific end of interrupt (R105) -/
  | ocw2Eoi (c : ChipId)
  /-- `CMD.UNREC`: unrecognized command byte `b` (R106) -/
  | cmdUnrec (c : ChipId) (b : Byte)
  /-- `RDCMD`: read the command port (R107) -/
  | rdcmd (c : ChipId)
  /-- `ICW2`: vector offset `b` (R121) -/
  | icw2 (c : ChipId) (b : Byte)
  /-- `ICW3`: cascade line `b` (R122) -/
  | icw3 (c : ChipId) (b : Byte)
  /-- `ICW4`: the one supported mode word (R123) -/
  | icw4 (c : ChipId)
  /-- `ICW4.BAD`: mode word `b` the block does not support (R123) -/
  | icw4Bad (c : ChipId) (b : Byte)
  /-- `OCW1`: interrupt mask `b` (R125) -/
  | ocw1 (c : ChipId) (b : Byte)
  /-- `RDDATA`: read the mask (R126) -/
  | rddata (c : ChipId)
  /-- `ASSERT.CHIP`: chip-level assertion of line 0..7 (R141) -/
  | assertChip (c : ChipId) (line : Byte)
  /-- `ASSERT.CHIP.RANGE`: chip-level assertion of line 8..255 (R140) -/
  | assertChipRange (c : ChipId) (line : Byte)
  /-- `ACK.CHIP`: chip-level acknowledgment (R144) -/
  | ackChip (c : ChipId) (vector : Byte)
  /-- `ASSERT.LO`: system line 0..7 (R161) -/
  | assertLo (line : Byte)
  /-- `ASSERT.HI`: system line 8..15 (R161) -/
  | assertHi (line : Byte)
  /-- `ASSERT.RANGE`: system line 16..255 (R160) -/
  | assertRange (line : Byte)
  /-- `ACK`: cascade acknowledgment (R163) -/
  | ack (vector : Byte)
  /-- `ISINIT`: the initialization query (R128) -/
  | isinit (c : ChipId)
  deriving DecidableEq, Repr

end Sys2Proof
end

