-- ==== Sys2Proof/WellFormed.lean ====
section
/-! DEFINITION. Which operands each operation form admits (the "Operands" lines of 40_command_port.md to
43_cascade.md). The checks are written from those lines, not from the decoder. -/

namespace Sys2Proof

/-- R101: the `INIT` bit set, no bit outside `INIT | IC4`, and `IC4` set where `ICW1_REQUIRE_IC4`. -/
def icw1Byte (k : Config) (b : Byte) : Bool :=
  b &&& k.cmd.init != 0#8 && b &&& ~~~(k.cmd.init ||| k.cmd.ic4) == 0#8 &&
  (!k.requireIc4 || b &&& k.cmd.ic4 != 0#8)

/-- The operand condition of each form, for an implementation with parameters `k`. -/
def Instr.wf (k : Config) : Instr → Bool
  | .icw1 _ b => icw1Byte k b
  | .icw1Bad _ b => b &&& k.cmd.init != 0#8 && !icw1Byte k b
  | .ocw3Rirr _ => true
  | .ocw3Risr _ => true
  | .ocw2Eoi _ => true
  | .cmdUnrec _ b =>
    b &&& k.cmd.init == 0#8 && b != k.cmd.rdIrr && b != k.cmd.rdIsr && b != k.cmd.eoi
  | .rdcmd _ => true
  | .icw2 _ _ => true
  | .icw3 _ _ => true
  | .icw4 _ => true
  | .icw4Bad _ b => b != k.modeWord
  | .ocw1 _ _ => true
  | .rddata _ => true
  | .assertChip _ line => decide (line.toNat < 8)
  | .assertChipRange _ line => decide (8 ≤ line.toNat)
  | .ackChip _ _ => true
  | .assertLo line => decide (line.toNat < 8)
  | .assertHi line => decide (8 ≤ line.toNat) && decide (line.toNat ≤ 15)
  | .assertRange line => decide (16 ≤ line.toNat)
  | .ack _ => true
  | .isinit _ => true

end Sys2Proof
end

