-- ==== Sys2Proof/Decode.lean ====
section
/-! DEFINITION. The transaction word (30_encoding.md R70 to R85): its fields, the classification of command bytes
(R76), the decoder, the encoder, and the opcode map itself (R85) as data to hold the decoder against. -/

namespace Sys2Proof

/-! ### Fields (R70) -/

/-- `T[15]`: 0 = master, 1 = slave. -/
def chipField (w : TxnWord) : ChipId := if w.getLsbD 15 then .slave else .master

/-- `T[14:11]` -/
def opField (w : TxnWord) : BitVec 4 := w.extractLsb' 11 4

/-- `T[10:8]` -/
def stageField (w : TxnWord) : BitVec 3 := w.extractLsb' 8 3

/-- `T[7:0]` -/
def byteField (w : TxnWord) : Byte := w.extractLsb' 0 8

/-- `T[15]` of a chip. -/
def chipBit : ChipId → BitVec 1
  | .master => 0#1
  | .slave => 1#1

/-- R70: the word with the four fields given. -/
def packWord (c : ChipId) (op : BitVec 4) (stage : BitVec 3) (byte : Byte) : TxnWord :=
  chipBit c ++ op ++ stage ++ byte

/-! ### Decoding -/

/-- What a command byte is (R76). -/
inductive CmdForm where
  | icw1
  | icw1Bad
  | rdIrr
  | rdIsr
  | eoi
  | unrec
  deriving DecidableEq, Repr

/-- R76: the first test that holds, in the source's order; a bit test for `INIT`, whole-byte equality for the others
(DESIGN CHOICE, log entry 17). -/
def classifyCmd (k : Config) (b : Byte) : CmdForm :=
  if b &&& k.cmd.init != 0#8 then
    if b &&& ~~~(k.cmd.init ||| k.cmd.ic4) != 0#8 then .icw1Bad
    else if k.requireIc4 && b &&& k.cmd.ic4 == 0#8 then .icw1Bad
    else .icw1
  else if b == k.cmd.rdIrr then .rdIrr
  else if b == k.cmd.rdIsr then .rdIsr
  else if b == k.cmd.eoi then .eoi
  else .unrec

/-- R100: op 0, selected by the command byte alone. -/
def decodeCommand (k : Config) (c : ChipId) (b : Byte) : Instr :=
  match classifyCmd k b with
  | .icw1 => .icw1 c b
  | .icw1Bad => .icw1Bad c b
  | .rdIrr => .ocw3Rirr c
  | .rdIsr => .ocw3Risr c
  | .eoi => .ocw2Eoi c
  | .unrec => .cmdUnrec c b

/-- Why a transaction word has no meaning (R83). -/
inductive DecodeError where
  /-- ops 9..15: "No host operation spells them, and a model refuses them" -/
  | reservedOp (op : BitVec 4)
  /-- "Stage codes 5..7 never occur" -/
  | reservedStage (code : BitVec 3)
  deriving DecidableEq, Repr

/-- R78, R120: op 2, selected by the stage field. -/
def decodeDataWrite (k : Config) (c : ChipId) (stage : BitVec 3) (b : Byte) : Except DecodeError Instr :=
  match stage.toNat with
  | 0 => .ok (.ocw1 c b)
  | 1 => .ok (.icw2 c b)
  | 2 => .ok (.icw3 c b)
  | 3 => .ok (if b == k.modeWord then .icw4 c else .icw4Bad c b)
  | 4 => .ok (.ocw1 c b)
  | _ => .error (.reservedStage stage)

/-- R71, ops 4 and 6 split by line as R85 splits them. -/
def decodeAssertChip (c : ChipId) (line : Byte) : Instr :=
  if line.toNat < 8 then .assertChip c line else .assertChipRange c line

/-- R85, rows `ASSERT.LO`, `ASSERT.HI` and `ASSERT.RANGE`. -/
def decodeAssert (line : Byte) : Instr :=
  if line.toNat < 8 then .assertLo line
  else if line.toNat ≤ 15 then .assertHi line
  else .assertRange line

/-- R70, R71: the operation a transaction word names. The stage is ignored outside op 2, the byte by the reads and the
query, and the chip by ops 6 and 7, as the rows' masks leave them out (log entry 25). -/
def decode (k : Config) (w : TxnWord) : Except DecodeError Instr :=
  match (opField w).toNat with
  | 0 => .ok (decodeCommand k (chipField w) (byteField w))
  | 1 => .ok (.rdcmd (chipField w))
  | 2 => decodeDataWrite k (chipField w) (stageField w) (byteField w)
  | 3 => .ok (.rddata (chipField w))
  | 4 => .ok (decodeAssertChip (chipField w) (byteField w))
  | 5 => .ok (.ackChip (chipField w) (byteField w))
  | 6 => .ok (decodeAssert (byteField w))
  | 7 => .ok (.ack (byteField w))
  | 8 => .ok (.isinit (chipField w))
  | _ => .error (.reservedOp (opField w))

/-- A word of `nbits` bits as a transaction word: one 16-bit word, whose bits the opcode table numbers as R70 does. -/
def tableWord (nbits w : Nat) : TxnWord := BitVec.ofNat 16 (w % 2 ^ nbits)

/-- The operation the decoder reads from an opcode-table word, with the parameter defaults the table is written for. -/
def decodeTableWord (nbits w : Nat) : Option Instr :=
  match decode Config.default (tableWord nbits w) with
  | .ok i => some i
  | .error _ => none

/-! ### Encoding -/

/-- The transaction word of a form (R70, R71, R85). `OCW1` has two words, one for each of its stages; the encoder
writes stage 0, and decoding ignores the difference (R85: "the row applies to stage codes 0 and 4"). -/
def encode (k : Config) : Instr → TxnWord
  | .icw1 c b => packWord c 0#4 0#3 b
  | .icw1Bad c b => packWord c 0#4 0#3 b
  | .ocw3Rirr c => packWord c 0#4 0#3 k.cmd.rdIrr
  | .ocw3Risr c => packWord c 0#4 0#3 k.cmd.rdIsr
  | .ocw2Eoi c => packWord c 0#4 0#3 k.cmd.eoi
  | .cmdUnrec c b => packWord c 0#4 0#3 b
  | .rdcmd c => packWord c 1#4 0#3 0#8
  | .icw2 c b => packWord c 2#4 1#3 b
  | .icw3 c b => packWord c 2#4 2#3 b
  | .icw4 c => packWord c 2#4 3#3 k.modeWord
  | .icw4Bad c b => packWord c 2#4 3#3 b
  | .ocw1 c b => packWord c 2#4 0#3 b
  | .rddata c => packWord c 3#4 0#3 0#8
  | .assertChip c line => packWord c 4#4 0#3 line
  | .assertChipRange c line => packWord c 4#4 0#3 line
  | .ackChip c vector => packWord c 5#4 0#3 vector
  | .assertLo line => packWord .master 6#4 0#3 line
  | .assertHi line => packWord .master 6#4 0#3 line
  | .assertRange line => packWord .master 6#4 0#3 line
  | .ack vector => packWord .master 7#4 0#3 vector
  | .isinit c => packWord c 8#4 0#3 0#8

/-- R71: the op code of each form. -/
def Instr.opCode : Instr → Nat
  | .icw1 _ _ => 0
  | .icw1Bad _ _ => 0
  | .ocw3Rirr _ => 0
  | .ocw3Risr _ => 0
  | .ocw2Eoi _ => 0
  | .cmdUnrec _ _ => 0
  | .rdcmd _ => 1
  | .icw2 _ _ => 2
  | .icw3 _ _ => 2
  | .icw4 _ => 2
  | .icw4Bad _ _ => 2
  | .ocw1 _ _ => 2
  | .rddata _ => 3
  | .assertChip _ _ => 4
  | .assertChipRange _ _ => 4
  | .ackChip _ _ => 5
  | .assertLo _ => 6
  | .assertHi _ => 6
  | .assertRange _ => 6
  | .ack _ => 7
  | .isinit _ => 8

/-! ### The opcode map as data (R85) -/

/-- The mnemonics of R85 (a dot is written as an underscore). -/
inductive Mnemonic where
  | ICW1 | ICW1_BAD | OCW3_RIRR | OCW3_RISR | OCW2_EOI | CMD_UNREC | RDCMD | ICW2 | ICW3 | ICW4 | ICW4_BAD
  | OCW1 | RDDATA | ASSERT_CHIP | ASSERT_CHIP_RANGE | ACK_CHIP | ASSERT_LO | ASSERT_HI | ASSERT_RANGE | ACK | ISINIT
  deriving DecidableEq, Repr

/-- The row of R85 a form belongs to. -/
def Instr.mnemonic : Instr → Mnemonic
  | .icw1 _ _ => .ICW1
  | .icw1Bad _ _ => .ICW1_BAD
  | .ocw3Rirr _ => .OCW3_RIRR
  | .ocw3Risr _ => .OCW3_RISR
  | .ocw2Eoi _ => .OCW2_EOI
  | .cmdUnrec _ _ => .CMD_UNREC
  | .rdcmd _ => .RDCMD
  | .icw2 _ _ => .ICW2
  | .icw3 _ _ => .ICW3
  | .icw4 _ => .ICW4
  | .icw4Bad _ _ => .ICW4_BAD
  | .ocw1 _ _ => .OCW1
  | .rddata _ => .RDDATA
  | .assertChip _ _ => .ASSERT_CHIP
  | .assertChipRange _ _ => .ASSERT_CHIP_RANGE
  | .ackChip _ _ => .ACK_CHIP
  | .assertLo _ => .ASSERT_LO
  | .assertHi _ => .ASSERT_HI
  | .assertRange _ => .ASSERT_RANGE
  | .ack _ => .ACK
  | .isinit _ => .ISINIT

/-- One row of R85. -/
structure OpcodeRow where
  mnemonic : Mnemonic
  pattern : TxnWord
  mask : TxnWord
  prio : Nat
  deriving DecidableEq, Repr

/-- "a row applies when `(T & mask) == match`" (R85). -/
def OpcodeRow.applies (r : OpcodeRow) (w : TxnWord) : Bool := w &&& r.mask == r.pattern

/-- The 21 rows of R85, in its order, with the parameter defaults. -/
def opcodeMap : List OpcodeRow := [
  ⟨.ICW1, 0x0010#16, 0x78FE#16, 1⟩,
  ⟨.ICW1_BAD, 0x0010#16, 0x7810#16, 2⟩,
  ⟨.OCW3_RIRR, 0x000A#16, 0x78FF#16, 1⟩,
  ⟨.OCW3_RISR, 0x000B#16, 0x78FF#16, 1⟩,
  ⟨.OCW2_EOI, 0x0020#16, 0x78FF#16, 1⟩,
  ⟨.CMD_UNREC, 0x0000#16, 0x7800#16, 9⟩,
  ⟨.RDCMD, 0x0800#16, 0x7800#16, 1⟩,
  ⟨.ICW2, 0x1100#16, 0x7F00#16, 1⟩,
  ⟨.ICW3, 0x1200#16, 0x7F00#16, 1⟩,
  ⟨.ICW4, 0x1301#16, 0x7FFF#16, 1⟩,
  ⟨.ICW4_BAD, 0x1300#16, 0x7F00#16, 2⟩,
  ⟨.OCW1, 0x1000#16, 0x7B00#16, 1⟩,
  ⟨.RDDATA, 0x1800#16, 0x7800#16, 1⟩,
  ⟨.ASSERT_CHIP, 0x2000#16, 0x78F8#16, 1⟩,
  ⟨.ASSERT_CHIP_RANGE, 0x2000#16, 0x7800#16, 2⟩,
  ⟨.ACK_CHIP, 0x2800#16, 0x7800#16, 1⟩,
  ⟨.ASSERT_LO, 0x3000#16, 0x78F8#16, 1⟩,
  ⟨.ASSERT_HI, 0x3008#16, 0x78F8#16, 1⟩,
  ⟨.ASSERT_RANGE, 0x3000#16, 0x7800#16, 2⟩,
  ⟨.ACK, 0x3800#16, 0x7800#16, 1⟩,
  ⟨.ISINIT, 0x4000#16, 0x7800#16, 1⟩]

/-- "A row with a smaller `prio` is tried first; among rows that apply, the first in `prio` order wins" (R85): the
applicable row of least priority number, the earlier one where two are equal. -/
def firstApplicable (w : TxnWord) : List OpcodeRow → Option OpcodeRow
  | [] => none
  | r :: rows =>
    match r.applies w, firstApplicable w rows with
    | false, best => best
    | true, none => some r
    | true, some best => if r.prio ≤ best.prio then some r else some best

/-- The mnemonic R85's map gives a word, or none. -/
def mapMnemonic (w : TxnWord) : Option Mnemonic := (firstApplicable w opcodeMap).map (·.mnemonic)

end Sys2Proof
end

