-- ==== Sys2Proof/Machine/State.lean ====
section
/-! DEFINITION. The block's state (10_state.md R20 to R37) as plain data, the reasons a step can stop, and the state at
construction. -/

namespace Sys2Proof.Machine

/-- R26: the position in the initialization sequence. -/
inductive Stage where
  | notInitialized
  | awaitingOffset
  | awaitingCascadeWord
  | awaitingMode
  | ready
  deriving DecidableEq, Repr

/-- R20 to R27: the seven fields of one chip. -/
structure Chip where
  /-- R21, Interrupt Request Register -/
  irr : Byte
  /-- R22, In-Service Register -/
  isr : Byte
  /-- R23, Interrupt Mask Register -/
  imr : Byte
  /-- R24, vector offset -/
  offset : Byte
  /-- R25, the whole byte ICW3 wrote -/
  cascadeLine : Byte
  /-- R26 -/
  initStage : Stage
  /-- R27, the value the next command-port read returns -/
  latchedStatus : Byte
  deriving DecidableEq, Repr

/-- R15, R20: one outbound request to the host. -/
inductive Event where
  /-- `Inject(v)`: one call of `request_vector_injection` -/
  | inject (vector : Byte)
  /-- `CancelAll`: one call of `cancel_all_pending_injections` -/
  | cancelAll
  deriving DecidableEq, Repr

/-- R181 to R185: the five fault codes. -/
inductive FaultCode where
  /-- `F_ICW1_UNSUPPORTED` (R181) -/
  | icw1Unsupported
  /-- `F_ICW4_UNSUPPORTED` (R182) -/
  | icw4Unsupported
  /-- `F_ACK_NOT_PENDING` (R183) -/
  | ackNotPending
  /-- `F_IRQ_LINE_RANGE` (R184) -/
  | irqLineRange
  /-- `F_VECTOR_OVERFLOW` (R185) -/
  | vectorOverflow
  deriving DecidableEq, Repr

/-- R16, R180: `Fault(code, chip, value)`. `chip` is none where the spec writes `-` (a fault of the cascade itself). -/
structure FaultRecord where
  code : FaultCode
  chip : Option ChipId
  value : Nat
  deriving DecidableEq, Repr

/-- R17: what an operation hands back to the host. -/
inductive Reply where
  /-- the byte a port read returns -/
  | byte (b : Byte)
  /-- the Boolean `is_initialized` returns -/
  | flag (b : Bool)
  deriving DecidableEq, Repr

/-- One call the host makes (20_memory.md R51 to R53, R58, R59; 30_encoding.md R86). -/
inductive HostCall where
  /-- `OUT port`: an access of as many bytes as the list has; only one byte is a port access of the block (R53) -/
  | portWrite (port : Nat) (bytes : List Byte)
  /-- `IN port`: a read of `width` bytes (R53) -/
  | portRead (port : Nat) (width : Nat)
  /-- `Cascade.assert_irq(line)`, the line in a byte-wide carrier (R72) -/
  | assertIrq (line : Byte)
  /-- `Cascade.ack(vector)` -/
  | ack (vector : Byte)
  /-- `is_initialized(c)` -/
  | isInitialized (c : ChipId)
  /-- The part of a transaction word that is not filled from the state (R70), given directly: every op code can be
  spelled, the internal ops 4 and 5 (conflict C7) and the reserved ops 9..15 too. No host has this call (log entry 24). -/
  | transaction (c : ChipId) (op : BitVec 4) (byte : Byte)
  /-- A concurrent or re-entrant call, which breaks the exclusivity contract (R58, R59, R188) -/
  | overlapping
  deriving DecidableEq, Repr

/-- Why the machine stops with a fault. -/
inductive Fault where
  /-- The block holds this fault record already and "has no further step" (R180). Raised by `step` and by every meaning,
  on entry, in a faulted state. Safe: the spec gives no step here. -/
  | halted (r : FaultRecord)
  deriving DecidableEq, Repr

/-- Why a call has no meaning. Each is safe: the machine stops where the spec gives no step. -/
inductive Refusal where
  /-- An instruction without a meaning yet. Raised by `exec`'s refused arms; this model has none. Safe. -/
  | notModelled (mnemonic : String)
  /-- The host makes no call, and "The host is the only agent that issues steps" (R6). Raised by `step`. Safe. -/
  | noHostCall
  /-- An access of `width` bytes to a port of the block, `width` not 1 (R53). Raised by `step`. Safe. -/
  | portAccessWidth (port : Nat) (width : Nat)
  /-- A port that is none of the four of `PORT_MAP` (R50): it belongs to another device. Raised by `step`. Safe. -/
  | portNotOfBlock (port : Nat)
  /-- A concurrent or re-entrant call (R58, R59, R188). Raised by `step`. Safe. -/
  | overlappingCall
  /-- Ops 9..15 (R83). Raised by `step` on a `HostCall.transaction`. Safe. -/
  | reservedOp (op : BitVec 4)
  /-- Stage codes 5..7 (R83). No state has one, so no step raises it. Safe. -/
  | reservedStage (code : BitVec 3)
  /-- A data-port write form executed on a chip that is not in the form's stage (R120). Raised by `exec` of `ICW2`,
  `ICW3`, `ICW4`, `ICW4.BAD` and `OCW1`; no step raises it, since the decoder fills the stage from the state. Safe. -/
  | stageMismatch (c : ChipId) (stage : Stage)
  deriving DecidableEq, Repr

/-- R20: the block, with the implementation parameters and the host's side of the interface. -/
structure State where
  /-- The implementation parameters (R7 to R10); no step changes them (log entry 9). -/
  config : Config
  /-- `M` -/
  master : Chip
  /-- `S` -/
  slave : Chip
  /-- R33: every event emitted so far, oldest first -/
  trace : List Event
  /-- R34 -/
  fault : Option FaultRecord
  /-- The calls the host has yet to make, next one first (R40; log entry 1). The model's own field. -/
  hostCalls : List HostCall
  /-- What the last operation handed back to the host (R17; log entry 2). The model's own field. -/
  returned : Option Reply
  deriving DecidableEq, Repr

/-- R36: a chip at construction. -/
def Chip.construct (r : ResetRegs) : Chip where
  irr := 0x00#8
  isr := 0x00#8
  imr := r.imr
  offset := r.offset
  cascadeLine := r.cascadeLine
  initStage := .notInitialized
  latchedStatus := r.latchedStatus

/-- R36: the block at construction, for every value of the parameters (R7 to R11). -/
def State.construct (k : Config) (m s : ResetRegs) : State where
  config := k
  master := Chip.construct m
  slave := Chip.construct s
  trace := []
  fault := none
  hostCalls := []
  returned := none

/-- The block right after construction, its only reset (R210), with the parameter defaults and the value the model names
for `RESET_REGS` (log entry 3). -/
def State.reset : State := State.construct Config.default ResetRegs.zero ResetRegs.zero

end Sys2Proof.Machine
end

