-- ==== Sys2Proof/Machine/Ops.lean ====
section
/-! DEFINITION. The named operations every meaning is written over: reading and writing a chip (00_scope.md R14), emitting
events (R15), returning a value (R17), raising a fault (R16, 60_exceptions.md R180), and the entry conditions. There is no
return from a fault (R180); the return from an interrupt is the EOI command (R193, `execOcw2Eoi`). -/

namespace Sys2Proof.Machine

/-- What `exec` and `step` answer. -/
abbrev Result := Host.Outcome State Fault Refusal

/-- R14: chip `c` of the block. -/
def State.chip (s : State) : ChipId → Chip
  | .master => s.master
  | .slave => s.slave

/-- R14: the block with chip `c` replaced, and nothing else (R18). -/
def State.setChip (s : State) (c : ChipId) (ch : Chip) : State :=
  match c with
  | .master => { s with master := ch }
  | .slave => { s with slave := ch }

/-- R15: `emit e`. -/
def State.emit (s : State) (e : Event) : State := { s with trace := s.trace ++ [e] }

/-- R15, R61: several events, in order. -/
def State.emitAll (s : State) (es : List Event) : State := { s with trace := s.trace ++ es }

/-- R17: `return v`. -/
def State.reply (s : State) (v : Reply) : State := { s with returned := some v }

/-- R17: the state an operation starts from: it has returned nothing yet. -/
def State.begun (s : State) : State := { s with returned := none }

/-- The block with the calls the host has yet to make replaced. -/
def State.withCalls (s : State) (calls : List HostCall) : State := { s with hostCalls := calls }

/-- R16, R180: `raise code(chip, value)`. The state enters the fault state, where no operation has a step
(DESIGN CHOICE, log entry 10). -/
def State.raise (s : State) (code : FaultCode) (chip : Option ChipId) (value : Nat) : State :=
  { s with fault := some { code := code, chip := chip, value := value } }

/-- R14, R180: a later statement of the same operation, performed only if the earlier ones raised no fault. -/
def State.andThen (s : State) (next : State → State) : State :=
  match s.fault with
  | none => next s
  | some _ => s

/-- R180: on entry `fault` must be none, or there is no step. An operation that runs returns nothing unless its rule
says otherwise (R17). -/
def running (s : State) (k : State → Result) : Result :=
  match s.fault with
  | some r => .fault (.halted r)
  | none => k s.begun

/-- R120: a data-port write form acts on a chip in its own stage (DESIGN CHOICE, log entry 23). -/
def atStage (c : ChipId) (stages : List Stage) (s : State) (k : State → Result) : Result :=
  if (s.chip c).initStage ∈ stages then k s else .refused (.stageMismatch c (s.chip c).initStage)

end Sys2Proof.Machine
end

