-- ==== Sys2Proof/Machine/Operands.lean ====
section
/-! DEFINITION. Bits, vectors and lines (00_scope.md R13; 30_encoding.md R81, R82; 10_state.md R26). -/

namespace Sys2Proof.Machine

/-- R12: the IRQ lines of one chip, in ascending order. -/
def chipLines : List Nat := [0, 1, 2, 3, 4, 5, 6, 7]

/-- R13: `v[i]`. -/
def bit (v : Byte) (i : Nat) : Bool := v.getLsbD i

/-- R13: `(1 << i)`, the byte with only bit `i` set. -/
def lineBit (i : Nat) : Byte := 1#8 <<< i

/-- R13: `lowest_set(v)`, none for 0. -/
def lowestSet (v : Byte) : Option Nat := chipLines.find? (bit v)

/-- R105: `v` without its lowest set bit; 0 stays 0. -/
def clearLowest (v : Byte) : Byte :=
  match lowestSet v with
  | none => v
  | some i => v &&& ~~~(lineBit i)

/-- R81: `vec(c, i) = c.offset + i`, exact. -/
def Chip.vectorSum (ch : Chip) (i : Nat) : Nat := ch.offset.toNat + i

/-- R81, R185: the sum does not fit a vector. -/
def Chip.overflows (ch : Chip) (i : Nat) : Bool := decide (0xFF < ch.vectorSum i)

/-- The event that requests line `i`'s vector. It is used only where the sum fits (R81). -/
def Chip.injectEvent (ch : Chip) (i : Nat) : Event := .inject (BitVec.ofNat 8 (ch.vectorSum i))

/-- The lines whose `irr` bit is set, in ascending order (R124). -/
def Chip.pendingLines (ch : Chip) : List Nat := chipLines.filter (bit ch.irr)

/-- R82, R143: the pending line an acknowledged vector names on this chip, if it names one. -/
def Chip.ackLine (ch : Chip) (vector : Byte) : Option Nat :=
  if vector.toNat < ch.offset.toNat then none
  else if 7 < vector.toNat - ch.offset.toNat then none
  else if bit ch.irr (vector.toNat - ch.offset.toNat) then some (vector.toNat - ch.offset.toNat)
  else none

/-- R82: the slave's own line for a system line 8..15. -/
def slaveLine (line : Byte) : Byte := line - 8#8

/-- R26: the code of a stage in the transaction word. -/
def Stage.code : Stage → BitVec 3
  | .notInitialized => 0#3
  | .awaitingOffset => 1#3
  | .awaitingCascadeWord => 2#3
  | .awaitingMode => 3#3
  | .ready => 4#3

/-- R26: the stage of a code; codes 5..7 are no stage. -/
def Stage.ofCode (code : BitVec 3) : Option Stage :=
  match code.toNat with
  | 0 => some .notInitialized
  | 1 => some .awaitingOffset
  | 2 => some .awaitingCascadeWord
  | 3 => some .awaitingMode
  | 4 => some .ready
  | _ => none

end Sys2Proof.Machine
end

