-- ==== Sys2Proof/Machine/Flags.lean ====
section
/-! DEFINITION. The block's one flag, derived from the initialization stage (10_state.md R28), and the tests of
42_interrupt_protocol.md R141. -/

namespace Sys2Proof.Machine

/-- R28: `is_initialized(c)`. -/
def Chip.isInitialized (ch : Chip) : Bool := decide (ch.initStage = .ready)

/-- R23, R141: line `i` is masked. -/
def Chip.masked (ch : Chip) (i : Nat) : Bool := bit ch.imr i

end Sys2Proof.Machine
end

