-- ==== Sys2Proof/Machine/InterruptProtocol.lean ====
section
/-! DEFINITION. The chip-level interrupt protocol (42_interrupt_protocol.md): the steps the cascade operations perform. -/

namespace Sys2Proof.Machine

/-- R141: `c.assert_irq(line)`, its checks in the order of the pseudocode (R140 first). DESIGN CHOICE, the spec's own (log
entries 11, 12). -/
def chipAssert (c : ChipId) (line : Byte) (s : State) : State :=
  let ch := s.chip c
  if 8 ≤ line.toNat then s.raise .irqLineRange (some c) line.toNat
  else if ch.initStage ≠ .ready then s
  else if ch.masked line.toNat then s
  else if ch.overflows line.toNat then s.raise .vectorOverflow (some c) (ch.vectorSum line.toNat)
  else (s.setChip c { ch with irr := ch.irr ||| lineBit line.toNat }).emit (ch.injectEvent line.toNat)

/-- R144: `c.ack(vector)`, in every stage (R145; DESIGN CHOICE, the spec's own, log entry 14). -/
def chipAck (c : ChipId) (vector : Byte) (s : State) : State :=
  let ch := s.chip c
  match ch.ackLine vector with
  | none => s.raise .ackNotPending (some c) vector.toNat
  | some i => s.setChip c { ch with irr := ch.irr &&& ~~~(lineBit i), isr := ch.isr ||| lineBit i }

/-- R141, `ASSERT.CHIP`. -/
def execAssertChip (c : ChipId) (line : Byte) (s : State) : Result :=
  running s fun s => .next (chipAssert c line s)

/-- R140, `ASSERT.CHIP.RANGE`: the range check of `c.assert_irq` fails in every stage. -/
def execAssertChipRange (c : ChipId) (line : Byte) (s : State) : Result :=
  running s fun s => .next (chipAssert c line s)

/-- R144, `ACK.CHIP`. -/
def execAckChip (c : ChipId) (vector : Byte) (s : State) : Result :=
  running s fun s => .next (chipAck c vector s)

end Sys2Proof.Machine
end

