-- ==== Sys2Proof/Machine/Cascade.lean ====
section
/-! DEFINITION. Cascade routing (43_cascade.md): the two host-facing interrupt operations. -/

namespace Sys2Proof.Machine

/-- R161: `Cascade.assert_irq(line)`. The master's step comes first; its fault ends the operation, and a fault of the
slave's step keeps the master's effects (R186). DESIGN CHOICE, the spec's own (log entries 11, 18). -/
def cascadeAssert (line : Byte) (s : State) : State :=
  if 15 < line.toNat then s.raise .irqLineRange none line.toNat
  else if line.toNat < 8 then chipAssert .master line s
  else (chipAssert .master s.master.cascadeLine s).andThen (chipAssert .slave (slaveLine line))

/-- R163: `Cascade.ack(vector)`, routed by the slave's offset alone. -/
def cascadeAck (vector : Byte) (s : State) : State :=
  if s.slave.offset.toNat ≤ vector.toNat then chipAck .slave vector s else chipAck .master vector s

/-- R161, `ASSERT.LO`: system lines 0..7. -/
def execAssertLo (line : Byte) (s : State) : Result :=
  running s fun s => .next (cascadeAssert line s)

/-- R161, `ASSERT.HI`: system lines 8..15. -/
def execAssertHi (line : Byte) (s : State) : Result :=
  running s fun s => .next (cascadeAssert line s)

/-- R160, `ASSERT.RANGE`: a line above 15 faults before any chip is touched. -/
def execAssertRange (line : Byte) (s : State) : Result :=
  running s fun s => .next (cascadeAssert line s)

/-- R163, `ACK`. -/
def execAck (vector : Byte) (s : State) : Result :=
  running s fun s => .next (cascadeAck vector s)

end Sys2Proof.Machine
end

