-- ==== Sys2Proof/Machine/CommandPort.lean ====
section
/-! DEFINITION. The command port of one chip (40_command_port.md). -/

namespace Sys2Proof.Machine

/-- R101, `ICW1`: begins (re-)initialization, in every stage. -/
def execIcw1 (c : ChipId) (_b : Byte) (s : State) : Result :=
  running s fun s =>
    let ch := s.chip c
    let s1 := s.setChip c { ch with imr := 0x00#8, initStage := .awaitingOffset }
    .next (if ch.irr = 0x00#8 then s1 else s1.emit .cancelAll)

/-- R102, `ICW1.BAD`: faults before any write. -/
def execIcw1Bad (c : ChipId) (b : Byte) (s : State) : Result :=
  running s fun s => .next (s.raise .icw1Unsupported (some c) b.toNat)

/-- R103, `OCW3.RIRR`: a snapshot of the request register. -/
def execOcw3Rirr (c : ChipId) (s : State) : Result :=
  running s fun s => .next (s.setChip c { s.chip c with latchedStatus := (s.chip c).irr })

/-- R104, `OCW3.RISR`: a snapshot of the in-service register. -/
def execOcw3Risr (c : ChipId) (s : State) : Result :=
  running s fun s => .next (s.setChip c { s.chip c with latchedStatus := (s.chip c).isr })

/-- R105, `OCW2.EOI`: non-specific end of interrupt. -/
def execOcw2Eoi (c : ChipId) (s : State) : Result :=
  running s fun s => .next (s.setChip c { s.chip c with isr := clearLowest (s.chip c).isr })

/-- R106, `CMD.UNREC`: ignored; its log has no architectural effect (R108; log entry 21). -/
def execCmdUnrec (_c : ChipId) (_b : Byte) (s : State) : Result :=
  running s fun s => .next s

/-- R107, `RDCMD`: returns the latched status. -/
def execRdcmd (c : ChipId) (s : State) : Result :=
  running s fun s => .next (s.reply (.byte (s.chip c).latchedStatus))

end Sys2Proof.Machine
end

