-- ==== Sys2Proof/Machine/DataPort.lean ====
section
/-! DEFINITION. The data port of one chip and the initialization query (41_data_port.md). -/

namespace Sys2Proof.Machine

/-- R121, `ICW2`: programs the vector offset. -/
def execIcw2 (c : ChipId) (b : Byte) (s : State) : Result :=
  running s fun s => atStage c [.awaitingOffset] s fun s =>
    .next (s.setChip c { s.chip c with offset := b, initStage := .awaitingCascadeWord })

/-- R122, `ICW3`: programs the cascade line, the whole byte (conflict C1; DESIGN CHOICE, the spec's own, log entry 13). -/
def execIcw3 (c : ChipId) (b : Byte) (s : State) : Result :=
  running s fun s => atStage c [.awaitingCascadeWord] s fun s =>
    .next (s.setChip c { s.chip c with cascadeLine := b, initStage := .awaitingMode })

/-- R123: finishing initialization with the mode word accepted. The pending vectors are checked before any write (R186)
and requested in ascending line order (R124). DESIGN CHOICE, the spec's own (log entries 11, 12, 15). -/
def finishInit (c : ChipId) (s : State) : State :=
  let ch := s.chip c
  match ch.pendingLines.find? ch.overflows with
  | some i => s.raise .vectorOverflow (some c) (ch.vectorSum i)
  | none => (s.setChip c { ch with initStage := .ready }).emitAll (ch.pendingLines.map ch.injectEvent)

/-- R123, `ICW4`: the supported mode word. -/
def execIcw4 (c : ChipId) (s : State) : Result :=
  running s fun s => atStage c [.awaitingMode] s fun s => .next (finishInit c s)

/-- R123, `ICW4.BAD`: the mode check comes first and faults before any write. -/
def execIcw4Bad (c : ChipId) (b : Byte) (s : State) : Result :=
  running s fun s => atStage c [.awaitingMode] s fun s =>
    .next (s.raise .icw4Unsupported (some c) b.toNat)

/-- R125, R127, `OCW1`: writes the mask, before any initialization too. -/
def execOcw1 (c : ChipId) (b : Byte) (s : State) : Result :=
  running s fun s => atStage c [.notInitialized, .ready] s fun s =>
    .next (s.setChip c { s.chip c with imr := b })

/-- R126, `RDDATA`: returns the mask. -/
def execRddata (c : ChipId) (s : State) : Result :=
  running s fun s => .next (s.reply (.byte (s.chip c).imr))

/-- R128, `ISINIT`: the initialization query. -/
def execIsinit (c : ChipId) (s : State) : Result :=
  running s fun s => .next (s.reply (.flag (s.chip c).isInitialized))

end Sys2Proof.Machine
end

