-- ==== Sys2Proof/Machine/Dispatch.lean ====
section
/-! DEFINITION. The dispatch: one arm per operation form, each one call of its meaning. -/

namespace Sys2Proof.Machine

def exec (i : Instr) (s : State) : Host.Outcome State Fault Refusal :=
  match i with
  | .icw1 c b => Sys2Proof.Machine.execIcw1 c b s
  | .icw1Bad c b => Sys2Proof.Machine.execIcw1Bad c b s
  | .ocw3Rirr c => Sys2Proof.Machine.execOcw3Rirr c s
  | .ocw3Risr c => Sys2Proof.Machine.execOcw3Risr c s
  | .ocw2Eoi c => Sys2Proof.Machine.execOcw2Eoi c s
  | .cmdUnrec c b => Sys2Proof.Machine.execCmdUnrec c b s
  | .rdcmd c => Sys2Proof.Machine.execRdcmd c s
  | .icw2 c b => Sys2Proof.Machine.execIcw2 c b s
  | .icw3 c b => Sys2Proof.Machine.execIcw3 c b s
  | .icw4 c => Sys2Proof.Machine.execIcw4 c s
  | .icw4Bad c b => Sys2Proof.Machine.execIcw4Bad c b s
  | .ocw1 c b => Sys2Proof.Machine.execOcw1 c b s
  | .rddata c => Sys2Proof.Machine.execRddata c s
  | .assertChip c line => Sys2Proof.Machine.execAssertChip c line s
  | .assertChipRange c line => Sys2Proof.Machine.execAssertChipRange c line s
  | .ackChip c vector => Sys2Proof.Machine.execAckChip c vector s
  | .assertLo line => Sys2Proof.Machine.execAssertLo line s
  | .assertHi line => Sys2Proof.Machine.execAssertHi line s
  | .assertRange line => Sys2Proof.Machine.execAssertRange line s
  | .ack vector => Sys2Proof.Machine.execAck vector s
  | .isinit c => Sys2Proof.Machine.execIsinit c s

end Sys2Proof.Machine
end

