-- ==== Sys2Proof/Machine/Fetch.lean ====
section
/-! DEFINITION. How the host's next call becomes an operation (20_memory.md R51 to R53; 30_encoding.md R70): the port
decode, the transaction word with its stage field filled from the state, and the decoder. -/

namespace Sys2Proof.Machine

/-- R70: "The host supplies `chip`, `op` and `byte`". -/
structure Txn where
  chip : ChipId
  op : BitVec 4
  byte : Byte
  deriving DecidableEq, Repr

/-- R50: the two ports of a chip. -/
inductive PortKind where
  | command
  | data
  deriving DecidableEq, Repr

/-- R50, R51: the chip and port an address of the host's I/O space selects, if it is one of the four. -/
def portAt (m : PortMap) (port : Nat) : Option (ChipId × PortKind) :=
  if port = m.masterCmd then some (.master, .command)
  else if port = m.masterData then some (.master, .data)
  else if port = m.slaveCmd then some (.slave, .command)
  else if port = m.slaveData then some (.slave, .data)
  else none

/-- R71: the op code of a port write. -/
def writeOp : PortKind → BitVec 4
  | .command => 0#4
  | .data => 2#4

/-- R71: the op code of a port read. -/
def readOp : PortKind → BitVec 4
  | .command => 1#4
  | .data => 3#4

/-- R51 to R53, R72: the transaction a host call stands for, or why it stands for none. The chip of a cascade operation
is written 0 (R70). Widths other than one byte, other ports and overlapping calls are refused (log entries 16, 19). -/
def routeCall (k : Config) : HostCall → Except Refusal Txn
  | .portWrite port bytes =>
    match portAt k.ports port, bytes with
    | none, _ => .error (.portNotOfBlock port)
    | some (c, kind), [b] => .ok ⟨c, writeOp kind, b⟩
    | some _, bs => .error (.portAccessWidth port bs.length)
  | .portRead port width =>
    match portAt k.ports port with
    | none => .error (.portNotOfBlock port)
    | some (c, kind) =>
      if width = 1 then .ok ⟨c, readOp kind, 0#8⟩ else .error (.portAccessWidth port width)
  | .assertIrq line => .ok ⟨.master, 6#4, line⟩
  | .ack vector => .ok ⟨.master, 7#4, vector⟩
  | .isInitialized c => .ok ⟨c, 8#4, 0#8⟩
  | .transaction c op byte => .ok ⟨c, op, byte⟩
  | .overlapping => .error .overlappingCall

/-- R70: the transaction word. "The decoder fills it [the stage] from the state"; it is 0 for every op but 2. -/
def Txn.word (t : Txn) (s : State) : TxnWord :=
  packWord t.chip t.op (if t.op = 2#4 then (s.chip t.chip).initStage.code else 0#3) t.byte

/-- The operation the host's call performs in this state. -/
def decodeCall (s : State) (call : HostCall) : Except Refusal Instr :=
  match routeCall s.config call with
  | .error r => .error r
  | .ok t =>
    match decode s.config (t.word s) with
    | .ok i => .ok i
    | .error (.reservedOp op) => .error (.reservedOp op)
    | .error (.reservedStage code) => .error (.reservedStage code)

/-- What the host's next call asks of the block. -/
inductive Fetched where
  /-- the block is faulted (R180) -/
  | halted (r : FaultRecord)
  /-- there is no operation to perform -/
  | refuse (r : Refusal)
  /-- the operation, and the state without the call -/
  | run (i : Instr) (s : State)

/-- The host's next call, taken from the calls it has yet to make. -/
def fetch (s : State) : Fetched :=
  match s.fault, s.hostCalls with
  | some r, _ => .halted r
  | none, [] => .refuse .noHostCall
  | none, call :: rest =>
    match decodeCall s call with
    | .ok i => .run i (s.withCalls rest)
    | .error r => .refuse r

/-- `s` with the transaction of an opcode-table word as the host's next call. For op 2 the addressed chip is put in the
stage the word names, since the decoder reads the stage from the state (R70). -/
def placeWord (s : State) (nbits w : Nat) : State :=
  let t := tableWord nbits w
  let c := chipField t
  let s1 :=
    match opField t == 2#4, Stage.ofCode (stageField t) with
    | true, some stage => s.setChip c { s.chip c with initStage := stage }
    | _, _ => s
  s1.withCalls (.transaction c (opField t) (byteField t) :: s1.hostCalls)

end Sys2Proof.Machine
end

