-- ==== Sys2Proof/Machine/Step.lean ====
section
/-! DEFINITION. One step: the host makes its next call, one atomic transition (00_scope.md R6, 20_memory.md R58). -/

namespace Sys2Proof.Machine

/-- R6, R58, R180: one host call, or why there is none. -/
def step (s : State) : Host.Outcome State Fault Refusal :=
  match fetch s with
  | .halted r => .fault (.halted r)
  | .refuse r => .refused r
  | .run i s' => exec i s'

/-- `s` with the operation of an opcode-table word as the host's next call (log entry 1). -/
def State.withFetchWord (s : State) (nbits w : Nat) : State := placeWord s nbits w

end Sys2Proof.Machine
end

