-- ==== Sys2Proof/Safety.lean ====
section
/-! DEFINITION. The terms the claims use: what an operation leaves alone, which forms belong to one chip, which calls a
host may make, and the invariants of the block. -/

namespace Sys2Proof.Machine

/-! ### Frames (00_scope.md R18) -/

/-- Everything but chip `c`, the trace, the fault state and the reply is as before. -/
def SameOutside (c : ChipId) (s t : State) : Prop :=
  t.chip c.other = s.chip c.other ∧ t.config = s.config ∧ t.hostCalls = s.hostCalls

/-- The state after an operation whose only effect is the fault it raises: nothing returned, nothing else changed. -/
def State.faultedWith (s : State) (code : FaultCode) (chip : Option ChipId) (value : Nat) : State :=
  s.begun.raise code chip value

/-- The same operation performed `n` times, one after the other. -/
def execRepeat : Nat → Instr → State → Result
  | 0, _, s => .next s
  | n + 1, i, s =>
    match exec i s with
    | .next t => execRepeat n i t
    | .fault f => .fault f
    | .refused r => .refused r

/-- The chip a form addresses, for the forms that act on one chip; the cascade's forms address none. -/
def formChip : Instr → Option ChipId
  | .icw1 c _ => some c
  | .icw1Bad c _ => some c
  | .ocw3Rirr c => some c
  | .ocw3Risr c => some c
  | .ocw2Eoi c => some c
  | .cmdUnrec c _ => some c
  | .rdcmd c => some c
  | .icw2 c _ => some c
  | .icw3 c _ => some c
  | .icw4 c => some c
  | .icw4Bad c _ => some c
  | .ocw1 c _ => some c
  | .rddata c => some c
  | .assertChip c _ => some c
  | .assertChipRange c _ => some c
  | .ackChip c _ => some c
  | .assertLo _ => none
  | .assertHi _ => none
  | .assertRange _ => none
  | .ack _ => none
  | .isinit c => some c

/-- The forms that perform a chip-level `assert_irq` (R30). -/
def isAssertion : Instr → Bool
  | .assertChip _ _ => true
  | .assertChipRange _ _ => true
  | .assertLo _ => true
  | .assertHi _ => true
  | .assertRange _ => true
  | .icw1 _ _ => false
  | .icw1Bad _ _ => false
  | .ocw3Rirr _ => false
  | .ocw3Risr _ => false
  | .ocw2Eoi _ => false
  | .cmdUnrec _ _ => false
  | .rdcmd _ => false
  | .icw2 _ _ => false
  | .icw3 _ _ => false
  | .icw4 _ => false
  | .icw4Bad _ _ => false
  | .ocw1 _ _ => false
  | .rddata _ => false
  | .ackChip _ _ => false
  | .ack _ => false
  | .isinit _ => false

/-- The forms that perform a chip-level `ack` (R30, R31). -/
def isAcknowledgment : Instr → Bool
  | .ackChip _ _ => true
  | .ack _ => true
  | .icw1 _ _ => false
  | .icw1Bad _ _ => false
  | .ocw3Rirr _ => false
  | .ocw3Risr _ => false
  | .ocw2Eoi _ => false
  | .cmdUnrec _ _ => false
  | .rdcmd _ => false
  | .icw2 _ _ => false
  | .icw3 _ _ => false
  | .icw4 _ => false
  | .icw4Bad _ _ => false
  | .ocw1 _ _ => false
  | .rddata _ => false
  | .assertChip _ _ => false
  | .assertChipRange _ _ => false
  | .assertLo _ => false
  | .assertHi _ => false
  | .assertRange _ => false
  | .isinit _ => false

/-- The internal forms, ops 4 and 5 (R19, R71: not exposed to the host). -/
def isInternal : Instr → Bool
  | .assertChip _ _ => true
  | .assertChipRange _ _ => true
  | .ackChip _ _ => true
  | .icw1 _ _ => false
  | .icw1Bad _ _ => false
  | .ocw3Rirr _ => false
  | .ocw3Risr _ => false
  | .ocw2Eoi _ => false
  | .cmdUnrec _ _ => false
  | .rdcmd _ => false
  | .icw2 _ _ => false
  | .icw3 _ _ => false
  | .icw4 _ => false
  | .icw4Bad _ _ => false
  | .ocw1 _ _ => false
  | .rddata _ => false
  | .assertLo _ => false
  | .assertHi _ => false
  | .assertRange _ => false
  | .ack _ => false
  | .isinit _ => false

/-! ### The host's side -/

/-- `PORT_MAP.c.cmd` (R10). -/
def commandPort (k : Config) : ChipId → Nat
  | .master => k.ports.masterCmd
  | .slave => k.ports.slaveCmd

/-- `PORT_MAP.c.data` (R10). -/
def dataPort (k : Config) : ChipId → Nat
  | .master => k.ports.masterData
  | .slave => k.ports.slaveData

/-- The calls a host that keeps its contract makes (R52, R195): one-byte accesses to the four ports, the two cascade
calls and the query. -/
def hostMayCall (k : Config) : HostCall → Prop
  | .portWrite port bytes => (∃ c, port = commandPort k c ∨ port = dataPort k c) ∧ bytes.length = 1
  | .portRead port width => (∃ c, port = commandPort k c ∨ port = dataPort k c) ∧ width = 1
  | .assertIrq _ => True
  | .ack _ => True
  | .isInitialized _ => True
  | .transaction _ _ _ => False
  | .overlapping => False

/-! ### Invariants -/

/-- A chip that was never initialized has nothing pending and nothing in service (R30, R31, R36); a chip in the middle of
its sequence has no line masked (R129); a `Ready` chip has no pending line whose vector overflows (R141, R123). -/
abbrev Chip.Consistent (ch : Chip) : Prop :=
  (ch.initStage = .notInitialized → ch.irr = 0x00#8 ∧ ch.isr = 0x00#8) ∧
  (ch.initStage ∈ [Stage.awaitingOffset, .awaitingCascadeWord, .awaitingMode] → ch.imr = 0x00#8) ∧
  (ch.initStage = .ready → ∀ n ∈ chipLines, bit ch.irr n = true → ch.offset.toNat + n ≤ 0xFF)

/-- What each fault code records (R181 to R185): the chip, or none for the cascade's own range fault, and the range of
the offending value. -/
def FaultRecord.wf (k : Config) (r : FaultRecord) : Bool :=
  match r.code, r.chip with
  | .icw1Unsupported, some _ => decide (r.value < 256) && !icw1Byte k (BitVec.ofNat 8 r.value) &&
      BitVec.ofNat 8 r.value &&& k.cmd.init != 0#8
  | .icw4Unsupported, some _ => decide (r.value < 256) && BitVec.ofNat 8 r.value != k.modeWord
  | .ackNotPending, some _ => decide (r.value < 256)
  | .irqLineRange, some _ => decide (8 ≤ r.value) && decide (r.value < 256)
  | .irqLineRange, none => decide (16 ≤ r.value) && decide (r.value < 256)
  | .vectorOverflow, some _ => decide (256 ≤ r.value) && decide (r.value ≤ 262)
  | _, none => false

/-- The block's invariant. -/
abbrev State.Consistent (s : State) : Prop :=
  s.master.Consistent ∧ s.slave.Consistent ∧ ∀ r ∈ s.fault, r.wf s.config = true

/-- Every pending line of a `Ready` chip has had its vector, at the chip's current offset, requested from the host. -/
abbrev State.PendingRequested (s : State) : Prop :=
  ∀ c : ChipId, (s.chip c).initStage = .ready → ∀ n ∈ chipLines, bit (s.chip c).irr n = true →
    Event.inject ((s.chip c).offset + BitVec.ofNat 8 n) ∈ s.trace

end Sys2Proof.Machine
end

