-- ==== Sys2Proof/Certificates/Slice0/Obligations.lean ====
section
/-! DEFINITION. The statements about the model, each taken from the numbered rules its docstring names. -/

open Sys2Proof Sys2Proof.Machine

/-! ### Encoding (30_encoding.md) -/

/-- Decoding the word of a well-formed form gives the form back, for every parameter value R7 and R10 allow (R70 to
R85): no operand bit is lost. -/
def Obligations.DecodeOfEncodeIsIdentity : Prop :=
  ∀ (k : Config) (i : Instr), k.wf = true → i.wf k = true → decode k (encode k i) = .ok i

/-- Every form the decoder answers meets its operand condition (the "Operands" lines of R101 to R163), for every
parameter value. -/
def Obligations.DecodedFormsAreWellFormed : Prop :=
  ∀ (k : Config) (w : TxnWord) (i : Instr), decode k w = .ok i → i.wf k = true

/-- With the parameter defaults, the decoder answers for each of the 65536 words the form of the row that R85's opcode
map gives it by mask, match and priority, and refuses a word no row applies to. -/
def Obligations.DecoderFollowsOpcodeMap : Prop :=
  ∀ w : TxnWord,
    (match decode Config.default w with
      | .ok i => some i.mnemonic
      | .error _ => none) = mapMnemonic w

/-- R83 (the spec's own encoding, D19): ops 9 to 15 and, for a data write, stage codes 5 to 7 have no meaning; every
other word has one. -/
def Obligations.ReservedWordsAreRefused : Prop :=
  ∀ (k : Config) (w : TxnWord),
    (9 ≤ (opField w).toNat → decode k w = .error (.reservedOp (opField w))) ∧
    (opField w = 2#4 → 5 ≤ (stageField w).toNat → decode k w = .error (.reservedStage (stageField w))) ∧
    ((opField w).toNat ≤ 8 → (opField w = 2#4 → (stageField w).toNat ≤ 4) → ∃ i, decode k w = .ok i)

/-- Words written out from 95_test_vectors.md decode to the operations that file gives them. -/
def Obligations.SpecWordsDecode : Prop :=
  decode Config.default 0x0011#16 = .ok (.icw1 .master 0x11#8) ∧
  decode Config.default 0x80FF#16 = .ok (.icw1Bad .slave 0xFF#8) ∧
  decode Config.default 0x8020#16 = .ok (.ocw2Eoi .slave) ∧
  decode Config.default 0x9202#16 = .ok (.icw3 .slave 0x02#8) ∧
  decode Config.default 0x1303#16 = .ok (.icw4Bad .master 0x03#8) ∧
  decode Config.default 0x143C#16 = .ok (.ocw1 .master 0x3C#8) ∧
  decode Config.default 0x300A#16 = .ok (.assertHi 0x0A#8) ∧
  decode Config.default 0x3872#16 = .ok (.ack 0x72#8)

/-- R73 and R77: with the defaults 2 command bytes start an initialization, 126 are unsupported initialization
commands and 125 are unrecognized; with `ICW1_REQUIRE_IC4` only 0x11 starts one. The 125 rest on whole-byte
equality, the spec's own choice D4 (log entry 17). -/
def Obligations.CommandByteCounts : Prop :=
  let bytes := (List.range 256).map (BitVec.ofNat 8)
  let strict := { Config.default with requireIc4 := true }
  bytes.filter (fun b => classifyCmd Config.default b == .icw1) = [0x10#8, 0x11#8] ∧
  bytes.countP (fun b => classifyCmd Config.default b == .icw1Bad) = 126 ∧
  bytes.countP (fun b => classifyCmd Config.default b == .unrec) = 125 ∧
  bytes.filter (fun b => classifyCmd strict b == .icw1) = [0x11#8]

/-! ### A step -/

/-- A step performs the operation its call decodes to, on the state without the call: the host supplies chip, op and
byte, and the decoder fills the stage from the addressed chip, for op 2 only (R6, R70). -/
def Obligations.StepRunsDecodedOperation : Prop :=
  ∀ (s : State) (call : HostCall) (rest : List HostCall) (x : Txn) (i : Instr),
    s.fault = none → s.hostCalls = call :: rest → routeCall s.config call = .ok x →
    decode s.config (packWord x.chip x.op
      (if x.op = 2#4 then (s.chip x.chip).initStage.code else 0#3) x.byte) = .ok i →
    step s = exec i (s.withCalls rest)

/-- R51: each port access performs the operation of the chip the port belongs to; the cascade calls and the query are
routed by R71's op codes. -/
def Obligations.CallsRouteToTheirOperation : Prop :=
  ∀ (k : Config) (c : ChipId) (b : Byte), k.wf = true →
    routeCall k (.portWrite (commandPort k c) [b]) = .ok ⟨c, 0#4, b⟩ ∧
    routeCall k (.portRead (commandPort k c) 1) = .ok ⟨c, 1#4, 0#8⟩ ∧
    routeCall k (.portWrite (dataPort k c) [b]) = .ok ⟨c, 2#4, b⟩ ∧
    routeCall k (.portRead (dataPort k c) 1) = .ok ⟨c, 3#4, 0#8⟩ ∧
    routeCall k (.assertIrq b) = .ok ⟨.master, 6#4, b⟩ ∧
    routeCall k (.ack b) = .ok ⟨.master, 7#4, b⟩ ∧
    routeCall k (.isInitialized c) = .ok ⟨c, 8#4, 0#8⟩

/-- R53, R188, R83 (the spec's own choices D13, D19, D21): a host contract violation has no step: an access to one of
the block's ports that is not one byte wide, an overlapping call, a reserved op. The refusal is the outcome of the
whole run. -/
def Obligations.ContractViolationsAreRefused : Prop :=
  ∀ (s : State) (rest : List HostCall), s.fault = none →
    (∀ (c : ChipId) (port : Nat) (bytes : List Byte),
      port = commandPort s.config c ∨ port = dataPort s.config c → bytes.length ≠ 1 →
      s.hostCalls = .portWrite port bytes :: rest → step s = .refused (.portAccessWidth port bytes.length)) ∧
    (∀ (c : ChipId) (port width : Nat),
      port = commandPort s.config c ∨ port = dataPort s.config c → width ≠ 1 →
      s.hostCalls = .portRead port width :: rest → step s = .refused (.portAccessWidth port width)) ∧
    (s.hostCalls = .overlapping :: rest → step s = .refused .overlappingCall) ∧
    (∀ (c : ChipId) (op : BitVec 4) (b : Byte), 9 ≤ op.toNat →
      s.hostCalls = .transaction c op b :: rest → step s = .refused (.reservedOp op)) ∧
    (∀ (r : Refusal) (n : Nat), step s = .refused r → Host.Core.run Sys2Proof.core (n + 1) s = .refused r)

/-- R34, R180 (the spec's own choice D2): a fault, once raised, is never cleared: a faulted block has no step, and no
operation, read or query runs on it. That the step answers the record it holds is the model's choice (log entry 10).
-/
def Obligations.FaultedBlockHasNoStep : Prop :=
  ∀ (s : State) (r : FaultRecord), s.fault = some r →
    step s = .fault (.halted r) ∧ ∀ i : Instr, exec i s = .fault (.halted r)

/-- Every call of a host that keeps its contract (R195) completes in one step, which takes that call and no other (R6,
R58). -/
def Obligations.EveryHostCallCompletes : Prop :=
  ∀ (s : State) (call : HostCall) (rest : List HostCall),
    s.fault = none → s.hostCalls = call :: rest → hostMayCall s.config call →
    ∃ t, step s = .next t ∧ t.hostCalls = rest

/-- R19: no call of the host's interface performs a chip-level `assert_irq` or `ack` as an operation of its own. -/
def Obligations.HostCannotReachChipLevelForms : Prop :=
  ∀ (s : State) (call : HostCall) (i : Instr),
    hostMayCall s.config call → decodeCall s call = .ok i → isInternal i = false

/-- No step runs a data-port form on a chip in another stage, and none meets a reserved stage code: R70, "The decoder
fills it from the state". That the model refuses such a form is its own choice (log entry 23). -/
def Obligations.StepNeverMeetsAnotherStage : Prop :=
  ∀ (s : State) (c : ChipId) (stage : Stage) (code : BitVec 3),
    step s ≠ .refused (.stageMismatch c stage) ∧ step s ≠ .refused (.reservedStage code)

/-- R7 to R10 are fixed for an implementation: a step keeps the parameters, and takes exactly one call. -/
def Obligations.StepKeepsParametersAndTakesOneCall : Prop :=
  ∀ s t : State, step s = .next t → t.config = s.config ∧ ∃ call, s.hostCalls = call :: t.hostCalls

/-! ### Reset -/

/-- R36, R11: what construction leaves, for every value of the parameters. -/
def Obligations.ConstructionValues : Prop :=
  ∀ (k : Config) (m r : ResetRegs) (c : ChipId),
    let s := State.construct k m r
    let v := match c with
      | .master => m
      | .slave => r
    (s.chip c).initStage = .notInitialized ∧ (s.chip c).irr = 0x00#8 ∧ (s.chip c).isr = 0x00#8 ∧
    (s.chip c).imr = v.imr ∧ (s.chip c).offset = v.offset ∧ (s.chip c).cascadeLine = v.cascadeLine ∧
    (s.chip c).latchedStatus = v.latchedStatus ∧ s.trace = [] ∧ s.fault = none

/-- The reset state is the construction of R36 with the parameter defaults and zero for every value of `RESET_REGS`:
the model's choice (log entries 3, 5, 6, 7, 8), with the host's calls still to come (log entry 1). -/
def Obligations.ResetIsConstructionAtZero : Prop :=
  State.reset = State.construct Config.default ⟨0#8, 0#8, 0#8, 0#8⟩ ⟨0#8, 0#8, 0#8, 0#8⟩ ∧
  State.reset.hostCalls = [] ∧ State.reset.returned = none

/-- R210: at construction no operation can make a line pending or request an injection, whatever `RESET_REGS` holds.
-/
def Obligations.NothingBecomesPendingAtConstruction : Prop :=
  ∀ (k : Config) (m r : ResetRegs) (i : Instr) (t : State),
    exec i (State.construct k m r) = .next t → t.master.irr = 0x00#8 ∧ t.slave.irr = 0x00#8 ∧ t.trace = []

/-! ### Command port (40_command_port.md) -/

/-- R101, R100: an accepted initialization command, in every stage. -/
def Obligations.Icw1RestartsInitialization : Prop :=
  ∀ (c : ChipId) (b : Byte) (s : State), s.fault = none →
    (s.config.wf = true → icw1Byte s.config b = true →
      decodeCall s (.portWrite (commandPort s.config c) [b]) = .ok (.icw1 c b)) ∧
    ∃ t, exec (.icw1 c b) s = .next t ∧ SameOutside c s t ∧
      t.chip c = { s.chip c with imr := 0x00#8, initStage := .awaitingOffset } ∧
      t.trace = (if (s.chip c).irr = 0x00#8 then s.trace else s.trace ++ [.cancelAll]) ∧
      (t.chip c).isInitialized = false ∧ t.fault = none ∧ t.returned = none

/-- R102, R181 (`ICW1_REQUIRE_IC4` is the open parameter of D5; check before write is the spec's own choice D2): an
initialization command with a bit the block does not support faults, and writes nothing else. -/
def Obligations.UnsupportedIcw1Faults : Prop :=
  ∀ (c : ChipId) (b : Byte) (s : State), s.fault = none →
    (s.config.wf = true → b &&& s.config.cmd.init ≠ 0#8 → icw1Byte s.config b = false →
      decodeCall s (.portWrite (commandPort s.config c) [b]) = .ok (.icw1Bad c b)) ∧
    exec (.icw1Bad c b) s = .next (s.faultedWith .icw1Unsupported (some c) b.toNat)

/-- R103, R104: the two status-read commands latch the register of that moment and change nothing else. -/
def Obligations.StatusCommandsLatch : Prop :=
  ∀ (c : ChipId) (s : State), s.fault = none →
    (s.config.wf = true →
      decodeCall s (.portWrite (commandPort s.config c) [s.config.cmd.rdIrr]) = .ok (.ocw3Rirr c) ∧
      decodeCall s (.portWrite (commandPort s.config c) [s.config.cmd.rdIsr]) = .ok (.ocw3Risr c)) ∧
    (∃ t, exec (.ocw3Rirr c) s = .next t ∧ SameOutside c s t ∧
      t.chip c = { s.chip c with latchedStatus := (s.chip c).irr } ∧
      t.trace = s.trace ∧ t.fault = none ∧ t.returned = none) ∧
    (∃ t, exec (.ocw3Risr c) s = .next t ∧ SameOutside c s t ∧
      t.chip c = { s.chip c with latchedStatus := (s.chip c).isr } ∧
      t.trace = s.trace ∧ t.fault = none ∧ t.returned = none)

/-- R105: the non-specific EOI clears the lowest-numbered in-service bit, only that one, and nothing when none is set.
-/
def Obligations.EoiClearsLowestInService : Prop :=
  ∀ (c : ChipId) (s : State), s.fault = none →
    (s.config.wf = true →
      decodeCall s (.portWrite (commandPort s.config c) [s.config.cmd.eoi]) = .ok (.ocw2Eoi c)) ∧
    ∃ t, exec (.ocw2Eoi c) s = .next t ∧ SameOutside c s t ∧
      t.chip c = { s.chip c with isr := (s.chip c).isr &&& ((s.chip c).isr - 1#8) } ∧
      ((s.chip c).isr = 0x00#8 → (t.chip c).isr = 0x00#8) ∧
      (∀ n : Nat, bit (s.chip c).isr n = true → (∀ j < n, bit (s.chip c).isr j = false) →
        ∀ j, bit (t.chip c).isr j = (bit (s.chip c).isr j && decide (j ≠ n))) ∧
      t.trace = s.trace ∧ t.fault = none ∧ t.returned = none

/-- R106, R77: an unrecognized command changes nothing and emits nothing. Which bytes are unrecognized (0x0E and 0x6A among
them) rests on whole-byte equality with `RD_IRR`, `RD_ISR` and `EOI`, the spec's own choice D4 (R76, log entry 17). -/
def Obligations.UnrecognizedCommandIsIgnored : Prop :=
  ∀ (c : ChipId) (b : Byte) (s : State), s.fault = none →
    (s.config.wf = true → (Instr.cmdUnrec c b).wf s.config = true →
      decodeCall s (.portWrite (commandPort s.config c) [b]) = .ok (.cmdUnrec c b)) ∧
    exec (.cmdUnrec c b) s = .next s.begun

/-- R107, R126: a command-port read returns the latched status, a data-port read the mask, in every stage; neither
changes anything else, so that a second read returns the same. -/
def Obligations.PortReadsHaveNoSideEffect : Prop :=
  ∀ (c : ChipId) (s : State), s.fault = none →
    (s.config.wf = true → decodeCall s (.portRead (commandPort s.config c) 1) = .ok (.rdcmd c) ∧
      decodeCall s (.portRead (dataPort s.config c) 1) = .ok (.rddata c)) ∧
    exec (.rdcmd c) s = .next (s.reply (.byte (s.chip c).latchedStatus)) ∧
    exec (.rddata c) s = .next (s.reply (.byte (s.chip c).imr)) ∧
    ∀ (i : Instr) (t : State), i = .rdcmd c ∨ i = .rddata c → exec i s = .next t → exec i t = .next t

/-- R128, R28 (a query by the spec's own choice D24): the query answers whether the chip is `Ready`, and changes
nothing. -/
def Obligations.QueryReturnsTheFlag : Prop :=
  ∀ (c : ChipId) (s : State), s.fault = none →
    decodeCall s (.isInitialized c) = .ok (.isinit c) ∧
    exec (.isinit c) s = .next (s.reply (.flag (decide ((s.chip c).initStage = .ready))))

/-- R27: the latched status is a snapshot. `RD_IRR` and `RD_ISR` set it to the register of that moment, a command-port
read returns it, and no other operation writes it. -/
def Obligations.LatchedStatusIsASnapshot : Prop :=
  (∀ (c : ChipId) (s : State), s.fault = none →
    (∃ t, exec (.ocw3Rirr c) s = .next t ∧ (t.chip c).latchedStatus = (s.chip c).irr) ∧
    (∃ t, exec (.ocw3Risr c) s = .next t ∧ (t.chip c).latchedStatus = (s.chip c).isr) ∧
    (∃ t, exec (.rdcmd c) s = .next t ∧ t.returned = some (.byte (s.chip c).latchedStatus) ∧
      (t.chip c).latchedStatus = (s.chip c).latchedStatus)) ∧
  ∀ (i : Instr) (c : ChipId) (s t : State), i ≠ .ocw3Rirr c → i ≠ .ocw3Risr c → exec i s = .next t →
    (t.chip c).latchedStatus = (s.chip c).latchedStatus

/-! ### Data port (41_data_port.md) -/

/-- R120: which form a data-port write is, from the chip's stage on entry alone. -/
def Obligations.DataWriteFormFollowsStage : Prop :=
  ∀ (c : ChipId) (b : Byte) (s : State), s.config.wf = true →
    decodeCall s (.portWrite (dataPort s.config c) [b]) = .ok
      (match (s.chip c).initStage with
        | .awaitingOffset => .icw2 c b
        | .awaitingCascadeWord => .icw3 c b
        | .awaitingMode => if b = s.config.modeWord then .icw4 c else .icw4Bad c b
        | .notInitialized => .ocw1 c b
        | .ready => .ocw1 c b)

/-- R120 and the model's own choice (log entry 23): a data-port write form executed on a chip that is not in the
form's stage is refused by name. No step does so (`StepNeverMeetsAnotherStage`). -/
def Obligations.DataWriteOfAnotherStageIsRefused : Prop :=
  ∀ (c : ChipId) (b : Byte) (s : State), s.fault = none →
    ((s.chip c).initStage ≠ .awaitingOffset →
      exec (.icw2 c b) s = .refused (.stageMismatch c (s.chip c).initStage)) ∧
    ((s.chip c).initStage ≠ .awaitingCascadeWord →
      exec (.icw3 c b) s = .refused (.stageMismatch c (s.chip c).initStage)) ∧
    ((s.chip c).initStage ≠ .awaitingMode →
      exec (.icw4 c) s = .refused (.stageMismatch c (s.chip c).initStage) ∧
      exec (.icw4Bad c b) s = .refused (.stageMismatch c (s.chip c).initStage)) ∧
    ((s.chip c).initStage ≠ .notInitialized → (s.chip c).initStage ≠ .ready →
      exec (.ocw1 c b) s = .refused (.stageMismatch c (s.chip c).initStage))

/-- R121: ICW2 stores the whole byte as the offset and advances. -/
def Obligations.Icw2ProgramsOffset : Prop :=
  ∀ (c : ChipId) (b : Byte) (s : State), s.fault = none → (s.chip c).initStage = .awaitingOffset →
    (s.config.wf = true → decodeCall s (.portWrite (dataPort s.config c) [b]) = .ok (.icw2 c b)) ∧
    ∃ t, exec (.icw2 c b) s = .next t ∧ SameOutside c s t ∧
      t.chip c = { s.chip c with offset := b, initStage := .awaitingCascadeWord } ∧
      (t.chip c).isInitialized = false ∧ t.trace = s.trace ∧ t.fault = none ∧ t.returned = none

/-- R122: ICW3 stores the whole byte (the spec's own choice D8, log entry 13) as the cascade line and advances. -/
def Obligations.Icw3ProgramsCascadeLine : Prop :=
  ∀ (c : ChipId) (b : Byte) (s : State), s.fault = none → (s.chip c).initStage = .awaitingCascadeWord →
    (s.config.wf = true → decodeCall s (.portWrite (dataPort s.config c) [b]) = .ok (.icw3 c b)) ∧
    ∃ t, exec (.icw3 c b) s = .next t ∧ SameOutside c s t ∧
      t.chip c = { s.chip c with cascadeLine := b, initStage := .awaitingMode } ∧
      (t.chip c).isInitialized = false ∧ t.trace = s.trace ∧ t.fault = none ∧ t.returned = none

/-- R123, R182, R185: ICW4. The vector check and its place are the spec's own choices D7 and D2, the ascending order
its choice D11 (log entries 11, 12, 15). A wrong mode word faults first; then the lowest pending line whose vector
overflows faults; else the chip is `Ready` and each pending line is requested once, in ascending order. -/
def Obligations.Icw4FinishesInitialization : Prop :=
  ∀ (c : ChipId) (s : State), s.fault = none → (s.chip c).initStage = .awaitingMode →
    (∀ b : Byte, exec (.icw4Bad c b) s = .next (s.faultedWith .icw4Unsupported (some c) b.toNat)) ∧
    (∀ n < 8, bit (s.chip c).irr n = true → 0xFF < (s.chip c).offset.toNat + n →
      (∀ j < n, bit (s.chip c).irr j = true → (s.chip c).offset.toNat + j ≤ 0xFF) →
      exec (.icw4 c) s = .next (s.faultedWith .vectorOverflow (some c) ((s.chip c).offset.toNat + n))) ∧
    ((∀ n < 8, bit (s.chip c).irr n = true → (s.chip c).offset.toNat + n ≤ 0xFF) →
      ∃ t, exec (.icw4 c) s = .next t ∧ SameOutside c s t ∧
        t.chip c = { s.chip c with initStage := .ready } ∧ (t.chip c).isInitialized = true ∧
        t.trace = s.trace ++ ((List.range 8).filter (bit (s.chip c).irr)).map
          (fun n => Event.inject ((s.chip c).offset + BitVec.ofNat 8 n)) ∧
        t.fault = none ∧ t.returned = none)

/-- R125: a mask write, in `NotInitialized` and in `Ready`. -/
def Obligations.Ocw1WritesMask : Prop :=
  ∀ (c : ChipId) (b : Byte) (s : State), s.fault = none →
    (s.chip c).initStage = .notInitialized ∨ (s.chip c).initStage = .ready →
    (s.config.wf = true → decodeCall s (.portWrite (dataPort s.config c) [b]) = .ok (.ocw1 c b)) ∧
    ∃ t, exec (.ocw1 c b) s = .next t ∧ SameOutside c s t ∧ t.chip c = { s.chip c with imr := b } ∧
      (t.chip c).isInitialized = (s.chip c).isInitialized ∧
      t.trace = s.trace ∧ t.fault = none ∧ t.returned = none

/-- R127: a data-port write to a chip in `NotInitialized` is a mask write; the chip stays there, and `assert_irq` on
it remains a no-op. -/
def Obligations.MaskWriteBeforeInitialization : Prop :=
  ∀ (c : ChipId) (b line : Byte) (s : State), s.fault = none → s.config.wf = true →
    (s.chip c).initStage = .notInitialized → line.toNat < 8 →
    decodeCall s (.portWrite (dataPort s.config c) [b]) = .ok (.ocw1 c b) ∧
    ∃ t, exec (.ocw1 c b) s = .next t ∧ (t.chip c).imr = b ∧ (t.chip c).initStage = .notInitialized ∧
      exec (.assertChip c line) t = .next t

/-! ### Chip interrupt protocol (42_interrupt_protocol.md) -/

/-- R140, R141: `c.assert_irq(line)`, check by check in the order of the rule. The order of the checks and the vector
fault are the spec's own choices D2 and D7 (log entries 11 and 12). -/
def Obligations.ChipAssertionFollowsItsChecks : Prop :=
  ∀ (c : ChipId) (line : Byte) (s : State), s.fault = none →
    (8 ≤ line.toNat →
      exec (.assertChipRange c line) s = .next (s.faultedWith .irqLineRange (some c) line.toNat)) ∧
    (line.toNat < 8 → (s.chip c).initStage ≠ .ready →
      exec (.assertChip c line) s = .next s.begun) ∧
    (line.toNat < 8 → (s.chip c).initStage = .ready → bit (s.chip c).imr line.toNat = true →
      exec (.assertChip c line) s = .next s.begun) ∧
    (line.toNat < 8 → (s.chip c).initStage = .ready → bit (s.chip c).imr line.toNat = false →
      0xFF < (s.chip c).offset.toNat + line.toNat →
      exec (.assertChip c line) s =
        .next (s.faultedWith .vectorOverflow (some c) ((s.chip c).offset.toNat + line.toNat))) ∧
    (line.toNat < 8 → (s.chip c).initStage = .ready → bit (s.chip c).imr line.toNat = false →
      (s.chip c).offset.toNat + line.toNat ≤ 0xFF →
      ∃ t, exec (.assertChip c line) s = .next t ∧ SameOutside c s t ∧
        t.chip c = { s.chip c with irr := (s.chip c).irr ||| 1#8 <<< line.toNat } ∧
        t.trace = s.trace ++ [.inject ((s.chip c).offset + line)] ∧ t.fault = none ∧ t.returned = none)

/-- R143, R144, R145 (in every stage: the spec's own choice D10, log entry 14): `c.ack(vector)` moves the pending bit
from `irr` to `isr` in every stage, and faults when the vector names no pending line. -/
def Obligations.ChipAcknowledgmentMovesPendingBit : Prop :=
  ∀ (c : ChipId) (vector : Byte) (s : State), s.fault = none →
    (vector.toNat < (s.chip c).offset.toNat ∨ (s.chip c).offset.toNat + 7 < vector.toNat ∨
        bit (s.chip c).irr (vector.toNat - (s.chip c).offset.toNat) = false →
      exec (.ackChip c vector) s = .next (s.faultedWith .ackNotPending (some c) vector.toNat)) ∧
    (∀ n < 8, vector.toNat = (s.chip c).offset.toNat + n → bit (s.chip c).irr n = true →
      ∃ t, exec (.ackChip c vector) s = .next t ∧ SameOutside c s t ∧
        t.chip c = { s.chip c with
          irr := (s.chip c).irr &&& ~~~(1#8 <<< n), isr := (s.chip c).isr ||| 1#8 <<< n } ∧
        t.trace = s.trace ∧ t.fault = none ∧ t.returned = none)

/-- R147, R144 (derived by the spec from R141, R144, R105): an accepted assertion can be acknowledged once: the bit is
then in service and no longer pending, and a second acknowledgment of the same vector faults. -/
def Obligations.AssertedLineIsAcknowledgedOnce : Prop :=
  ∀ (c : ChipId) (line : Byte) (s : State), s.fault = none → line.toNat < 8 → (s.chip c).initStage = .ready →
    bit (s.chip c).imr line.toNat = false → (s.chip c).offset.toNat + line.toNat ≤ 0xFF →
    ∃ t u, exec (.assertChip c line) s = .next t ∧
      exec (.ackChip c ((s.chip c).offset + line)) t = .next u ∧ u.fault = none ∧
      (∀ j, bit (u.chip c).irr j = (bit (s.chip c).irr j && decide (j ≠ line.toNat))) ∧
      (∀ j, bit (u.chip c).isr j = (bit (s.chip c).isr j || decide (j = line.toNat))) ∧
      exec (.ackChip c ((s.chip c).offset + line)) u =
        .next (u.faultedWith .ackNotPending (some c) ((s.chip c).offset.toNat + line.toNat))

/-- R142: each accepted assertion emits exactly one `Inject`, whether or not the bit was set already: N assertions of
one line emit N `Inject` events and leave one `irr` bit. -/
def Obligations.EveryAssertionRequestsOnce : Prop :=
  ∀ (n : Nat) (c : ChipId) (line : Byte) (s : State),
    s.fault = none → line.toNat < 8 → (s.chip c).initStage = .ready →
    bit (s.chip c).imr line.toNat = false → (s.chip c).offset.toNat + line.toNat ≤ 0xFF →
    ∃ t, execRepeat (n + 1) (.assertChip c line) s = .next t ∧ SameOutside c s t ∧
      t.trace = s.trace ++ List.replicate (n + 1) (.inject ((s.chip c).offset + line)) ∧
      t.chip c = { s.chip c with irr := (s.chip c).irr ||| 1#8 <<< line.toNat } ∧ t.fault = none

/-! ### Cascade (43_cascade.md) -/

/-- R160, R165 (the fault record by the spec's own choice D2): a system line above 15 faults before any chip is
touched, and the fault names no chip. -/
def Obligations.CascadeLineRangeFaults : Prop :=
  ∀ (line : Byte) (s : State), s.fault = none → 16 ≤ line.toNat →
    exec (.assertRange line) s = .next (s.faultedWith .irqLineRange none line.toNat)

/-- R161, lines 0..7: the master's own assertion, whatever it answers, and its effect where the master accepts. -/
def Obligations.LowLinesGoToTheMaster : Prop :=
  ∀ (line : Byte) (s : State), s.fault = none → line.toNat < 8 →
    (∃ t, exec (.assertLo line) s = .next t ∧ exec (.assertChip .master line) s = .next t) ∧
    (s.master.initStage = .ready → bit s.master.imr line.toNat = false →
      s.master.offset.toNat + line.toNat ≤ 0xFF →
      ∃ t, exec (.assertLo line) s = .next t ∧
        t.master = { s.master with irr := s.master.irr ||| 1#8 <<< line.toNat } ∧ t.slave = s.slave ∧
        t.trace = s.trace ++ [.inject (s.master.offset + line)] ∧
        t.fault = none ∧ t.returned = none ∧ t.config = s.config ∧ t.hostCalls = s.hostCalls)

/-- R161, lines 8..15, in the order of the spec's own choice D23 (log entry 18): first the master's assertion of its
cascade line, and only if that raised no fault the slave's of the line less 8. -/
def Obligations.HighLinesGoToBothChips : Prop :=
  ∀ (line : Byte) (s : State), s.fault = none → 8 ≤ line.toNat → line.toNat ≤ 15 →
    ∃ m, exec (decodeAssertChip .master s.master.cascadeLine) s = .next m ∧
      (m.fault ≠ none → exec (.assertHi line) s = .next m) ∧
      (m.fault = none →
        ∃ t, exec (.assertHi line) s = .next t ∧ exec (.assertChip .slave (line - 8#8)) m = .next t)

/-- R161 (order of the events: D23, log entry 18): where both chips accept, a line 8..15 sets one bit in each and
requests the master's vector, then the slave's. -/
def Obligations.HighLineEffectOnBothChips : Prop :=
  ∀ (line : Byte) (s : State), s.fault = none → 8 ≤ line.toNat → line.toNat ≤ 15 →
    s.master.cascadeLine.toNat < 8 →
    s.master.initStage = .ready → bit s.master.imr s.master.cascadeLine.toNat = false →
    s.master.offset.toNat + s.master.cascadeLine.toNat ≤ 0xFF →
    s.slave.initStage = .ready → bit s.slave.imr (line.toNat - 8) = false →
    s.slave.offset.toNat + (line.toNat - 8) ≤ 0xFF →
    ∃ t, exec (.assertHi line) s = .next t ∧
      t.master = { s.master with irr := s.master.irr ||| 1#8 <<< s.master.cascadeLine.toNat } ∧
      t.slave = { s.slave with irr := s.slave.irr ||| 1#8 <<< (line.toNat - 8) } ∧
      t.trace = s.trace ++
        [.inject (s.master.offset + s.master.cascadeLine), .inject (s.slave.offset + (line - 8#8))] ∧
      t.fault = none ∧ t.returned = none ∧ t.config = s.config ∧ t.hostCalls = s.hostCalls

/-- R184, third case, R25: a line 8..15 faults naming the master when the master's cascade line is above 7, in every stage
of the master, and the slave is not touched. It rests on three of the spec's own choices: the stored width is D8 (log
entry 13), the range check before the stage test D2 (R140, R186, log entry 11), and the master's step first, whose fault
skips the slave's, D23 (R161, log entry 18). -/
def Obligations.BadCascadeLineFaults : Prop :=
  ∀ (line : Byte) (s : State), s.fault = none → 8 ≤ line.toNat → line.toNat ≤ 15 →
    8 ≤ s.master.cascadeLine.toNat →
    exec (.assertHi line) s = .next (s.faultedWith .irqLineRange (some .master) s.master.cascadeLine.toNat)

/-- R163: an acknowledgment is the slave's when the vector is at or above the slave's offset, else the master's,
whatever the master's offset and the stages are; there is no fallback. -/
def Obligations.AcknowledgmentIsRoutedBySlaveOffset : Prop :=
  ∀ (vector : Byte) (s : State), s.fault = none →
    (s.slave.offset.toNat ≤ vector.toNat →
      ∃ t, exec (.ack vector) s = .next t ∧ exec (.ackChip .slave vector) s = .next t) ∧
    (vector.toNat < s.slave.offset.toNat →
      ∃ t, exec (.ack vector) s = .next t ∧ exec (.ackChip .master vector) s = .next t)

/-- R163 with R144: where the routed chip has the line pending, the bit moves from its `irr` to its `isr`, and the
other chip is untouched. -/
def Obligations.RoutedAcknowledgmentMovesPendingBit : Prop :=
  ∀ (vector : Byte) (n : Nat) (s : State), s.fault = none → n < 8 →
    ∀ c : ChipId, (c = .slave ↔ s.slave.offset.toNat ≤ vector.toNat) →
    vector.toNat = (s.chip c).offset.toNat + n → bit (s.chip c).irr n = true →
    ∃ t, exec (.ack vector) s = .next t ∧ SameOutside c s t ∧
      t.chip c = { s.chip c with
        irr := (s.chip c).irr &&& ~~~(1#8 <<< n), isr := (s.chip c).isr ||| 1#8 <<< n } ∧
      t.trace = s.trace ∧ t.fault = none ∧ t.returned = none

/-! ### Rules about the whole block -/

/-- R30: a bit of `irr` becomes set only by an assertion, on a `Ready` chip with the line unmasked, and becomes clear
only by an acknowledgment. -/
def Obligations.RequestBitsMoveByAssertAndAckOnly : Prop :=
  ∀ (i : Instr) (s t : State) (c : ChipId) (n : Nat), exec i s = .next t →
    (bit (s.chip c).irr n = false → bit (t.chip c).irr n = true →
      isAssertion i = true ∧ (s.chip c).initStage = .ready ∧ bit (s.chip c).imr n = false) ∧
    (bit (s.chip c).irr n = true → bit (t.chip c).irr n = false → isAcknowledgment i = true)

/-- R31 (derived by the spec from R22, R105, R144): a bit of `isr` becomes set only by an acknowledgment of a pending
line, and becomes clear only by the EOI command of its chip. -/
def Obligations.ServiceBitsMoveByAckAndEoiOnly : Prop :=
  ∀ (i : Instr) (s t : State) (c : ChipId) (n : Nat), exec i s = .next t →
    (bit (s.chip c).isr n = false → bit (t.chip c).isr n = true →
      isAcknowledgment i = true ∧ bit (s.chip c).irr n = true ∧ bit (t.chip c).irr n = false) ∧
    (bit (s.chip c).isr n = true → bit (t.chip c).isr n = false → i = .ocw2Eoi c)

/-- R26 (with conflict C2): the only stage transitions are ICW1, from any stage to `AwaitingOffset`, and ICW2, ICW3,
ICW4 in that order; no operation moves a chip back to `NotInitialized`. -/
def Obligations.StageTransitions : Prop :=
  ∀ (i : Instr) (s t : State) (c : ChipId), exec i s = .next t →
    (t.chip c).initStage = (s.chip c).initStage ∨
    ((∃ b, i = .icw1 c b) ∧ (t.chip c).initStage = .awaitingOffset) ∨
    ((∃ b, i = .icw2 c b) ∧ (s.chip c).initStage = .awaitingOffset ∧
      (t.chip c).initStage = .awaitingCascadeWord) ∨
    ((∃ b, i = .icw3 c b) ∧ (s.chip c).initStage = .awaitingCascadeWord ∧
      (t.chip c).initStage = .awaitingMode) ∨
    (i = .icw4 c ∧ (s.chip c).initStage = .awaitingMode ∧ (t.chip c).initStage = .ready)

/-- R38, the "written by" column for `imr`, `offset` and `cascade_line`, with R23 to R25: which operation writes each
of a chip, and with what. R38 is derived by the spec; that `cascade_line` becomes ICW3's whole byte is the spec's own
choice D8 (R25, conflict C1, log entry 13). -/
def Obligations.RegisterWriters : Prop :=
  ∀ (i : Instr) (s t : State) (c : ChipId), exec i s = .next t →
    ((t.chip c).imr = (s.chip c).imr ∨ ((∃ b, i = .icw1 c b) ∧ (t.chip c).imr = 0x00#8) ∨
      i = .ocw1 c (t.chip c).imr) ∧
    ((t.chip c).offset = (s.chip c).offset ∨ i = .icw2 c (t.chip c).offset) ∧
    ((t.chip c).cascadeLine = (s.chip c).cascadeLine ∨ i = .icw3 c (t.chip c).cascadeLine)

/-- R32: an operation of one chip leaves the other chip as it was. -/
def Obligations.ChipOperationsKeepTheOtherChip : Prop :=
  ∀ (i : Instr) (c : ChipId) (s t : State), formChip i = some c → exec i s = .next t →
    t.chip c.other = s.chip c.other

/-- R32: what an operation of one chip does to that chip, returns, raises and emits does not depend on the other chip,
nor on the events emitted before. -/
def Obligations.ChipOperationsIgnoreTheOtherChip : Prop :=
  ∀ (i : Instr) (c : ChipId) (s₁ s₂ t₁ t₂ : State), formChip i = some c → s₁.chip c = s₂.chip c →
    exec i s₁ = .next t₁ → exec i s₂ = .next t₂ →
    t₁.chip c = t₂.chip c ∧ t₁.returned = t₂.returned ∧ t₁.fault = t₂.fault ∧
    ∃ es, t₁.trace = s₁.trace ++ es ∧ t₂.trace = s₂.trace ++ es

/-- R15 (D26): the trace is append-only. R194: `CancelAll` is emitted only by an initialization command, of a chip
with a pending line. -/
def Obligations.TraceGrowsAndCancelsOnlyOnIcw1 : Prop :=
  ∀ (i : Instr) (s t : State), exec i s = .next t →
    ∃ es, t.trace = s.trace ++ es ∧
      (Event.cancelAll ∈ es → ∃ c b, i = .icw1 c b ∧ (s.chip c).irr ≠ 0x00#8 ∧ es = [.cancelAll])

/-- Every vector an operation requests is the exact vector of a line that is pending, after the operation, on a chip
that is then `Ready` (R81, R123, R141). -/
def Obligations.RequestedVectorsNamePendingLines : Prop :=
  ∀ (i : Instr) (s t : State) (es : List Event) (v : Byte), exec i s = .next t → t.trace = s.trace ++ es →
    Event.inject v ∈ es →
    ∃ (c : ChipId) (n : Nat), n < 8 ∧ (t.chip c).initStage = .ready ∧ bit (t.chip c).irr n = true ∧
      v.toNat = (t.chip c).offset.toNat + n

/-! ### Invariants -/

/-- Construction meets the block's invariant, whatever the parameters are (R36). -/
def Obligations.ConstructionIsConsistent : Prop :=
  ∀ (k : Config) (m r : ResetRegs),
    (State.construct k m r).Consistent ∧ (State.construct k m r).PendingRequested

/-- Every step keeps the block's invariant: an uninitialized chip has nothing pending or in service, a chip within its
sequence has no line masked (R129), a `Ready` chip has no pending line with an overflowing vector, and a fault record
is one that R181 to R185 give. -/
def Obligations.StepKeepsConsistency : Prop :=
  ∀ s t : State, s.Consistent → step s = .next t → t.Consistent

/-- Every step keeps it that a pending line of a `Ready` chip has had its vector requested at the current offset
(R123, R141, R214). -/
def Obligations.StepKeepsPendingRequested : Prop :=
  ∀ s t : State, s.PendingRequested → step s = .next t → t.PendingRequested

/-- R129 (derived by the spec from R101, R120, R125): from an accepted ICW1 until the chip is `Ready` its mask is 0,
and an assertion of one of its lines finds the line unmasked and is still a no-op; every step keeps the mask so. -/
def Obligations.MaskIsClearDuringInitialization : Prop :=
  (∀ (c : ChipId) (b : Byte) (s : State), s.fault = none →
    ∃ t, exec (.icw1 c b) s = .next t ∧ (t.chip c).imr = 0x00#8 ∧ (t.chip c).initStage = .awaitingOffset) ∧
  (∀ (c : ChipId) (s t : State),
    (s.chip c).initStage ∈ [Stage.awaitingOffset, .awaitingCascadeWord, .awaitingMode] →
    (s.chip c).imr = 0x00#8 → step s = .next t → (t.chip c).imr = 0x00#8) ∧
  (∀ (c : ChipId) (line : Byte) (s : State), s.fault = none →
    (s.chip c).initStage ∈ [Stage.awaitingOffset, .awaitingCascadeWord, .awaitingMode] → line.toNat < 8 →
    exec (.assertChip c line) s = .next s.begun)

/-- R211, R214: from any running state, the four writes of the initialization sequence bring the chip to `Ready` with
the offset and cascade line written, the mask clear, and every line that was pending requested again at the new
offset, after one `CancelAll` if there was any; `irr`, `isr`, `latched_status` and the other chip are kept.
That the whole byte `l` is stored is the spec's own choice D8 (log entry 13), the ascending order its choice D11 (log entry
15), and that no vector overflows, a hypothesis here, its choice D7 (log entry 12). -/
def Obligations.InitializationSequenceReachesReady : Prop :=
  ∀ (c : ChipId) (o l : Byte) (s : State) (rest : List HostCall),
    s.fault = none → s.config.wf = true →
    s.hostCalls = [.portWrite (commandPort s.config c) [s.config.cmd.init ||| s.config.cmd.ic4],
      .portWrite (dataPort s.config c) [o], .portWrite (dataPort s.config c) [l],
      .portWrite (dataPort s.config c) [s.config.modeWord]] ++ rest →
    (∀ n < 8, bit (s.chip c).irr n = true → o.toNat + n ≤ 0xFF) →
    ∃ t, Host.Core.run Sys2Proof.core 4 s = .next t ∧ t.hostCalls = rest ∧ t.config = s.config ∧
      t.chip c = { s.chip c with imr := 0x00#8, offset := o, cascadeLine := l, initStage := .ready } ∧
      t.chip c.other = s.chip c.other ∧ t.fault = none ∧
      t.trace = s.trace ++ (if (s.chip c).irr = 0x00#8 then [] else [.cancelAll]) ++
        ((List.range 8).filter (bit (s.chip c).irr)).map (fun n => Event.inject (o + BitVec.ofNat 8 n))
end

