-- ==== Sys2Proof/Laws/Decode.lean ====
section
/-! SUPPORT. The fields of a packed transaction word, and the decoder on a packed word. -/

namespace Sys2Proof

/-- Each bit of a packed word is a bit of its field (R70). -/
theorem getLsbD_packWord (c : ChipId) (op : BitVec 4) (stage : BitVec 3) (byte : Byte) (n : Nat) :
    (packWord c op stage byte).getLsbD n =
      if n < 8 then byte.getLsbD n
      else if n - 8 < 3 then stage.getLsbD (n - 8)
      else if n - 8 - 3 < 4 then op.getLsbD (n - 8 - 3)
      else (chipBit c).getLsbD (n - 8 - 3 - 4) := by
  show (chipBit c ++ op ++ stage ++ byte : BitVec (1 + 4 + 3 + 8)).getLsbD n = _
  rw [BitVec.getLsbD_append, BitVec.getLsbD_append, BitVec.getLsbD_append]

@[simp] theorem chipField_packWord (c : ChipId) (op : BitVec 4) (stage : BitVec 3) (byte : Byte) :
    chipField (packWord c op stage byte) = c := by
  unfold chipField
  rw [getLsbD_packWord]
  cases c <;> rfl

@[simp] theorem opField_packWord (c : ChipId) (op : BitVec 4) (stage : BitVec 3) (byte : Byte) :
    opField (packWord c op stage byte) = op := by
  apply BitVec.eq_of_getLsbD_eq
  intro i hi
  rw [opField, BitVec.getLsbD_extractLsb', getLsbD_packWord]
  interval_cases i <;> rfl

@[simp] theorem stageField_packWord (c : ChipId) (op : BitVec 4) (stage : BitVec 3) (byte : Byte) :
    stageField (packWord c op stage byte) = stage := by
  apply BitVec.eq_of_getLsbD_eq
  intro i hi
  rw [stageField, BitVec.getLsbD_extractLsb', getLsbD_packWord]
  interval_cases i <;> rfl

@[simp] theorem byteField_packWord (c : ChipId) (op : BitVec 4) (stage : BitVec 3) (byte : Byte) :
    byteField (packWord c op stage byte) = byte := by
  apply BitVec.eq_of_getLsbD_eq
  intro i hi
  rw [byteField, BitVec.getLsbD_extractLsb', getLsbD_packWord]
  interval_cases i <;> rfl

/-- A word is the pack of its fields: the fields cover all 16 bits (R70). -/
theorem packWord_fields (w : TxnWord) : packWord (chipField w) (opField w) (stageField w) (byteField w) = w := by
  have hc : chipBit (chipField w) = w.extractLsb' 15 1 := by
    apply BitVec.eq_of_getLsbD_eq
    intro j hj
    obtain rfl : j = 0 := by omega
    rw [BitVec.getLsbD_extractLsb', chipField]
    cases w.getLsbD 15 <;> rfl
  apply BitVec.eq_of_getLsbD_eq
  intro i hi
  rw [getLsbD_packWord, hc, opField, stageField, byteField]
  simp only [BitVec.getLsbD_extractLsb']
  interval_cases i <;> rfl

/-! ### What the classification says of a byte (R76) -/

theorem classifyCmd_icw1 {k : Config} {b : Byte} : classifyCmd k b = .icw1 ↔ icw1Byte k b = true := by
  unfold classifyCmd icw1Byte
  split <;> rename_i h1
  · split <;> rename_i h2
    · simp_all
    · cases hr : k.requireIc4 <;> simp_all
  · simp only [h1, Bool.false_and, Bool.false_eq_true, iff_false]
    split_ifs <;> simp

theorem classifyCmd_icw1Bad {k : Config} {b : Byte} :
    classifyCmd k b = .icw1Bad ↔ (b &&& k.cmd.init ≠ 0#8 ∧ icw1Byte k b = false) := by
  unfold classifyCmd icw1Byte
  split <;> rename_i h1
  · split <;> rename_i h2
    · simp_all
    · split <;> rename_i h3 <;> simp_all
  · have h0 : b &&& k.cmd.init = 0#8 := by simpa using h1
    simp only [h0, ne_eq, not_true_eq_false, false_and, iff_false]
    split_ifs <;> simp

/-- A byte without the `INIT` bit is classified by whole-byte equality, in the source's order. -/
theorem classifyCmd_of_not_init {k : Config} {b : Byte} (h : b &&& k.cmd.init = 0#8) :
    classifyCmd k b = if b == k.cmd.rdIrr then .rdIrr else if b == k.cmd.rdIsr then .rdIsr
      else if b == k.cmd.eoi then .eoi else .unrec := by
  simp [classifyCmd, h]

/-! ### The decoder on a packed word -/

@[simp] theorem decode_packWord_0 (k : Config) (c : ChipId) (stage : BitVec 3) (b : Byte) :
    decode k (packWord c 0#4 stage b) = .ok (decodeCommand k c b) := by simp [decode]
@[simp] theorem decode_packWord_1 (k : Config) (c : ChipId) (stage : BitVec 3) (b : Byte) :
    decode k (packWord c 1#4 stage b) = .ok (.rdcmd c) := by simp [decode]
@[simp] theorem decode_packWord_2 (k : Config) (c : ChipId) (stage : BitVec 3) (b : Byte) :
    decode k (packWord c 2#4 stage b) = decodeDataWrite k c stage b := by simp [decode]
@[simp] theorem decode_packWord_3 (k : Config) (c : ChipId) (stage : BitVec 3) (b : Byte) :
    decode k (packWord c 3#4 stage b) = .ok (.rddata c) := by simp [decode]
@[simp] theorem decode_packWord_4 (k : Config) (c : ChipId) (stage : BitVec 3) (b : Byte) :
    decode k (packWord c 4#4 stage b) = .ok (decodeAssertChip c b) := by simp [decode]
@[simp] theorem decode_packWord_5 (k : Config) (c : ChipId) (stage : BitVec 3) (b : Byte) :
    decode k (packWord c 5#4 stage b) = .ok (.ackChip c b) := by simp [decode]
@[simp] theorem decode_packWord_6 (k : Config) (c : ChipId) (stage : BitVec 3) (b : Byte) :
    decode k (packWord c 6#4 stage b) = .ok (decodeAssert b) := by simp [decode]
@[simp] theorem decode_packWord_7 (k : Config) (c : ChipId) (stage : BitVec 3) (b : Byte) :
    decode k (packWord c 7#4 stage b) = .ok (.ack b) := by simp [decode]
@[simp] theorem decode_packWord_8 (k : Config) (c : ChipId) (stage : BitVec 3) (b : Byte) :
    decode k (packWord c 8#4 stage b) = .ok (.isinit c) := by simp [decode]

end Sys2Proof
end

