-- ==== Sys2Proof/Laws/State.lean ====
section
/-! SUPPORT. What each update of the state does to each field: one lemma per field per update. -/

namespace Sys2Proof.Machine

@[simp] theorem other_other (c : ChipId) : c.other.other = c := by cases c <;> rfl
@[simp] theorem other_ne (c : ChipId) : c.other ≠ c := by cases c <;> decide
@[simp] theorem ne_other (c : ChipId) : c ≠ c.other := by cases c <;> decide

theorem eq_or_eq_other (c d : ChipId) : d = c ∨ d = c.other := by cases c <;> cases d <;> decide

/-! ### Reading a chip of an updated state -/

@[simp] theorem State.chip_master (s : State) : s.chip .master = s.master := rfl
@[simp] theorem State.chip_slave (s : State) : s.chip .slave = s.slave := rfl

/-! ### `begun` -/

@[simp] theorem State.begun_chip (s : State) (c : ChipId) : s.begun.chip c = s.chip c := by
  cases c <;> rfl
@[simp] theorem State.begun_master (s : State) : s.begun.master = s.master := rfl
@[simp] theorem State.begun_slave (s : State) : s.begun.slave = s.slave := rfl
@[simp] theorem State.begun_config (s : State) : s.begun.config = s.config := rfl
@[simp] theorem State.begun_trace (s : State) : s.begun.trace = s.trace := rfl
@[simp] theorem State.begun_fault (s : State) : s.begun.fault = s.fault := rfl
@[simp] theorem State.begun_hostCalls (s : State) : s.begun.hostCalls = s.hostCalls := rfl
@[simp] theorem State.begun_returned (s : State) : s.begun.returned = none := rfl

/-! ### `withCalls` -/

@[simp] theorem State.withCalls_chip (s : State) (calls : List HostCall) (c : ChipId) :
    (s.withCalls calls).chip c = s.chip c := by
  cases c <;> rfl
@[simp] theorem State.withCalls_master (s : State) (calls : List HostCall) :
    (s.withCalls calls).master = s.master := rfl
@[simp] theorem State.withCalls_slave (s : State) (calls : List HostCall) : (s.withCalls calls).slave = s.slave := rfl
@[simp] theorem State.withCalls_config (s : State) (calls : List HostCall) :
    (s.withCalls calls).config = s.config := rfl
@[simp] theorem State.withCalls_trace (s : State) (calls : List HostCall) : (s.withCalls calls).trace = s.trace := rfl
@[simp] theorem State.withCalls_fault (s : State) (calls : List HostCall) : (s.withCalls calls).fault = s.fault := rfl
@[simp] theorem State.withCalls_hostCalls (s : State) (calls : List HostCall) :
    (s.withCalls calls).hostCalls = calls := rfl
@[simp] theorem State.withCalls_returned (s : State) (calls : List HostCall) :
    (s.withCalls calls).returned = s.returned := rfl

/-! ### `setChip` -/

@[simp] theorem State.setChip_chip_self (s : State) (c : ChipId) (ch : Chip) : (s.setChip c ch).chip c = ch := by
  cases c <;> rfl
@[simp] theorem State.setChip_chip_other (s : State) (c : ChipId) (ch : Chip) :
    (s.setChip c ch).chip c.other = s.chip c.other := by cases c <;> rfl
theorem State.setChip_chip (s : State) (c d : ChipId) (ch : Chip) :
    (s.setChip c ch).chip d = if d = c then ch else s.chip d := by cases c <;> cases d <;> rfl
@[simp] theorem State.setChip_master (s : State) (ch : Chip) : (s.setChip .master ch).master = ch := rfl
@[simp] theorem State.setChip_master_slave (s : State) (ch : Chip) : (s.setChip .master ch).slave = s.slave := rfl
@[simp] theorem State.setChip_slave (s : State) (ch : Chip) : (s.setChip .slave ch).slave = ch := rfl
@[simp] theorem State.setChip_slave_master (s : State) (ch : Chip) : (s.setChip .slave ch).master = s.master := rfl
@[simp] theorem State.setChip_config (s : State) (c : ChipId) (ch : Chip) : (s.setChip c ch).config = s.config := by
  cases c <;> rfl
@[simp] theorem State.setChip_trace (s : State) (c : ChipId) (ch : Chip) : (s.setChip c ch).trace = s.trace := by
  cases c <;> rfl
@[simp] theorem State.setChip_fault (s : State) (c : ChipId) (ch : Chip) : (s.setChip c ch).fault = s.fault := by
  cases c <;> rfl
@[simp] theorem State.setChip_hostCalls (s : State) (c : ChipId) (ch : Chip) :
    (s.setChip c ch).hostCalls = s.hostCalls := by cases c <;> rfl
@[simp] theorem State.setChip_returned (s : State) (c : ChipId) (ch : Chip) :
    (s.setChip c ch).returned = s.returned := by cases c <;> rfl
@[simp] theorem State.setChip_setChip (s : State) (c : ChipId) (a b : Chip) :
    (s.setChip c a).setChip c b = s.setChip c b := by cases c <;> rfl
@[simp] theorem State.setChip_chip_eq (s : State) (c : ChipId) : s.setChip c (s.chip c) = s := by cases c <;> rfl

/-! ### `emit` and `emitAll` -/

@[simp] theorem State.emit_chip (s : State) (e : Event) (c : ChipId) : (s.emit e).chip c = s.chip c := by
  cases c <;> rfl
@[simp] theorem State.emit_master (s : State) (e : Event) : (s.emit e).master = s.master := rfl
@[simp] theorem State.emit_slave (s : State) (e : Event) : (s.emit e).slave = s.slave := rfl
@[simp] theorem State.emit_config (s : State) (e : Event) : (s.emit e).config = s.config := rfl
@[simp] theorem State.emit_trace (s : State) (e : Event) : (s.emit e).trace = s.trace ++ [e] := rfl
@[simp] theorem State.emit_fault (s : State) (e : Event) : (s.emit e).fault = s.fault := rfl
@[simp] theorem State.emit_hostCalls (s : State) (e : Event) : (s.emit e).hostCalls = s.hostCalls := rfl
@[simp] theorem State.emit_returned (s : State) (e : Event) : (s.emit e).returned = s.returned := rfl

@[simp] theorem State.emitAll_chip (s : State) (es : List Event) (c : ChipId) : (s.emitAll es).chip c = s.chip c := by
  cases c <;> rfl
@[simp] theorem State.emitAll_master (s : State) (es : List Event) : (s.emitAll es).master = s.master := rfl
@[simp] theorem State.emitAll_slave (s : State) (es : List Event) : (s.emitAll es).slave = s.slave := rfl
@[simp] theorem State.emitAll_config (s : State) (es : List Event) : (s.emitAll es).config = s.config := rfl
@[simp] theorem State.emitAll_trace (s : State) (es : List Event) : (s.emitAll es).trace = s.trace ++ es := rfl
@[simp] theorem State.emitAll_fault (s : State) (es : List Event) : (s.emitAll es).fault = s.fault := rfl
@[simp] theorem State.emitAll_hostCalls (s : State) (es : List Event) : (s.emitAll es).hostCalls = s.hostCalls := rfl
@[simp] theorem State.emitAll_returned (s : State) (es : List Event) : (s.emitAll es).returned = s.returned := rfl

/-! ### `reply` -/

@[simp] theorem State.reply_chip (s : State) (v : Reply) (c : ChipId) : (s.reply v).chip c = s.chip c := by
  cases c <;> rfl
@[simp] theorem State.reply_master (s : State) (v : Reply) : (s.reply v).master = s.master := rfl
@[simp] theorem State.reply_slave (s : State) (v : Reply) : (s.reply v).slave = s.slave := rfl
@[simp] theorem State.reply_config (s : State) (v : Reply) : (s.reply v).config = s.config := rfl
@[simp] theorem State.reply_trace (s : State) (v : Reply) : (s.reply v).trace = s.trace := rfl
@[simp] theorem State.reply_fault (s : State) (v : Reply) : (s.reply v).fault = s.fault := rfl
@[simp] theorem State.reply_hostCalls (s : State) (v : Reply) : (s.reply v).hostCalls = s.hostCalls := rfl
@[simp] theorem State.reply_returned (s : State) (v : Reply) : (s.reply v).returned = some v := rfl

/-! ### `raise` -/

@[simp] theorem State.raise_chip (s : State) (code : FaultCode) (h : Option ChipId) (v : Nat) (c : ChipId) :
    (s.raise code h v).chip c = s.chip c := by cases c <;> rfl
@[simp] theorem State.raise_master (s : State) (code : FaultCode) (h : Option ChipId) (v : Nat) :
    (s.raise code h v).master = s.master := rfl
@[simp] theorem State.raise_slave (s : State) (code : FaultCode) (h : Option ChipId) (v : Nat) :
    (s.raise code h v).slave = s.slave := rfl
@[simp] theorem State.raise_config (s : State) (code : FaultCode) (h : Option ChipId) (v : Nat) :
    (s.raise code h v).config = s.config := rfl
@[simp] theorem State.raise_trace (s : State) (code : FaultCode) (h : Option ChipId) (v : Nat) :
    (s.raise code h v).trace = s.trace := rfl
@[simp] theorem State.raise_fault (s : State) (code : FaultCode) (h : Option ChipId) (v : Nat) :
    (s.raise code h v).fault = some ⟨code, h, v⟩ := rfl
@[simp] theorem State.raise_hostCalls (s : State) (code : FaultCode) (h : Option ChipId) (v : Nat) :
    (s.raise code h v).hostCalls = s.hostCalls := rfl
@[simp] theorem State.raise_returned (s : State) (code : FaultCode) (h : Option ChipId) (v : Nat) :
    (s.raise code h v).returned = s.returned := rfl

/-- Two states with the same fields are equal: the chips may be compared through `chip`. -/
theorem State.ext_chip {s t : State} (hc : ∀ c, s.chip c = t.chip c) (hk : s.config = t.config)
    (ht : s.trace = t.trace) (hf : s.fault = t.fault) (hh : s.hostCalls = t.hostCalls)
    (hr : s.returned = t.returned) : s = t := by
  obtain ⟨k, m, sl, tr, f, h, r⟩ := s
  obtain ⟨k', m', sl', tr', f', h', r'⟩ := t
  have hm : m = m' := hc .master
  have hs : sl = sl' := hc .slave
  simp_all

end Sys2Proof.Machine
end

