-- ==== Sys2Proof/Laws/Ops.lean ====
section
/-! SUPPORT. One lemma per shared operation: everything it can do. Later proofs cite these instead of unfolding the
operations. -/

namespace Sys2Proof.Machine

/-! ### Entry conditions -/

@[simp] theorem running_of_running {s : State} (h : s.fault = none) (k : State → Result) :
    running s k = k s.begun := by simp [running, h]

@[simp] theorem running_of_faulted {s : State} {r : FaultRecord} (h : s.fault = some r) (k : State → Result) :
    running s k = .fault (.halted r) := by simp [running, h]

/-- `running` answers a next state only from a running state, and then it is its continuation's. -/
theorem running_next {s t : State} {k : State → Result} (h : running s k = .next t) :
    s.fault = none ∧ k s.begun = .next t := by
  cases hf : s.fault with
  | none => exact ⟨rfl, by simpa [running, hf] using h⟩
  | some r => simp [running, hf] at h

@[simp] theorem atStage_of_mem {c : ChipId} {stages : List Stage} {s : State} (h : (s.chip c).initStage ∈ stages)
    (k : State → Result) : atStage c stages s k = k s := by simp [atStage, h]

/-- `atStage` answers a next state only in one of the stages, and then it is its continuation's. -/
theorem atStage_next {c : ChipId} {stages : List Stage} {s t : State} {k : State → Result}
    (h : atStage c stages s k = .next t) : (s.chip c).initStage ∈ stages ∧ k s = .next t := by
  unfold atStage at h
  split at h
  · exact ⟨‹_›, h⟩
  · cases h

@[simp] theorem andThen_of_running {s : State} (h : s.fault = none) (f : State → State) : s.andThen f = f s := by
  simp [State.andThen, h]

@[simp] theorem andThen_of_faulted {s : State} (h : s.fault ≠ none) (f : State → State) : s.andThen f = s := by
  unfold State.andThen
  split
  · contradiction
  · rfl

/-! ### Bits -/

theorem mem_chipLines {n : Nat} : n ∈ chipLines ↔ n < 8 := by
  simp [chipLines]; omega

theorem bit_lineBit (i n : Nat) : bit (lineBit i) n = (decide (n < 8) && decide (n = i)) := by
  simp only [bit, lineBit, BitVec.getLsbD_shiftLeft, BitVec.getLsbD_one]
  rcases Nat.lt_trichotomy n i with h | h | h
  · simp [h, Nat.ne_of_lt h]
  · subst h; simp
  · have h1 : ¬ n < i := by omega
    have h2 : n ≠ i := by omega
    have h3 : n - i ≠ 0 := by omega
    simp [h2, h3]

theorem bit_of_ge (v : Byte) {n : Nat} (h : 8 ≤ n) : bit v n = false := BitVec.getLsbD_of_ge v n h

theorem lt_of_bit {v : Byte} {n : Nat} (h : bit v n = true) : n < 8 := by
  by_contra hn
  simp [bit_of_ge v (Nat.le_of_not_lt hn)] at h

/-- Setting line `i`'s bit changes no other bit. -/
theorem bit_or_lineBit (v : Byte) {i : Nat} (hi : i < 8) (n : Nat) :
    bit (v ||| lineBit i) n = (bit v n || decide (n = i)) := by
  have h : bit (v ||| lineBit i) n = (bit v n || bit (lineBit i) n) := BitVec.getLsbD_or
  rw [h, bit_lineBit]
  by_cases hn : n = i
  · subst hn; simp [hi]
  · simp [hn]

/-- Clearing line `i`'s bit changes no other bit. -/
theorem bit_and_not_lineBit (v : Byte) (i n : Nat) :
    bit (v &&& ~~~(lineBit i)) n = (bit v n && decide (n ≠ i)) := by
  by_cases hn : n < 8
  · have h : bit (v &&& ~~~(lineBit i)) n = (bit v n && !bit (lineBit i) n) := by
      simp [bit, hn]
    rw [h, bit_lineBit]
    simp [hn]
  · simp [bit_of_ge _ (Nat.le_of_not_lt hn)]

theorem eq_zero_of_bits {v : Byte} (h : ∀ n < 8, bit v n = false) : v = 0x00#8 := by
  apply BitVec.eq_of_getLsbD_eq
  intro n hn
  simpa [bit] using h n hn

/-- A search over the lines answers the lowest line that meets the test, or none does. -/
theorem find_chipLines (p : Nat → Bool) :
    (chipLines.find? p = none ∧ ∀ n < 8, p n = false) ∨
    ∃ i, chipLines.find? p = some i ∧ i < 8 ∧ p i = true ∧ ∀ j < i, p j = false := by
  cases h : chipLines.find? p with
  | none =>
    exact .inl ⟨rfl, fun n hn => by simpa using List.find?_eq_none.mp h n (mem_chipLines.mpr hn)⟩
  | some i =>
    have hi : i < 8 := mem_chipLines.mp (List.mem_of_find?_eq_some h)
    refine .inr ⟨i, rfl, hi, List.find?_some h, fun j hj => ?_⟩
    obtain ⟨_, as, bs, hl, hno⟩ := List.find?_eq_some_iff_append.mp h
    have hlen : as.length = i := by
      have hget : chipLines[as.length]? = some i := by simp [hl]
      have hlt : as.length < 8 := by
        have := congrArg List.length hl
        simp [chipLines] at this
        omega
      have : chipLines[as.length]? = some as.length := by
        generalize as.length = m at hlt
        interval_cases m <;> rfl
      simpa using this.symm.trans hget
    have hmem : j ∈ chipLines.take i := by
      interval_cases i <;> (simp [chipLines]; try omega)
    rw [hl, ← hlen] at hmem
    simpa using hno j (by simpa using hmem)

/-- `lowest_set` answers the lowest set bit (R13). -/
theorem lowestSet_spec (v : Byte) :
    (lowestSet v = none ∧ v = 0x00#8) ∨
    ∃ i, lowestSet v = some i ∧ i < 8 ∧ bit v i = true ∧ ∀ j < i, bit v j = false := by
  rcases find_chipLines (bit v) with ⟨h, hz⟩ | h
  · exact .inl ⟨h, eq_zero_of_bits hz⟩
  · exact .inr h

/-- What the EOI does to each bit (R105): the lowest set one is cleared, the others stay. -/
theorem clearLowest_spec (v : Byte) :
    (v = 0x00#8 ∧ clearLowest v = 0x00#8) ∨
    ∃ i < 8, bit v i = true ∧ (∀ j < i, bit v j = false) ∧
      ∀ n, bit (clearLowest v) n = (bit v n && decide (n ≠ i)) := by
  rcases lowestSet_spec v with ⟨h, rfl⟩ | ⟨i, h, hi, hb, hlow⟩
  · exact .inl ⟨rfl, by simp [clearLowest, h]⟩
  · exact .inr ⟨i, hi, hb, hlow, fun n => by simp only [clearLowest, h]; exact bit_and_not_lineBit v i n⟩

/-! ### Vectors -/

@[simp] theorem overflows_eq_true {ch : Chip} {i : Nat} : ch.overflows i = true ↔ 0xFF < ch.offset.toNat + i :=
  decide_eq_true_iff

@[simp] theorem overflows_eq_false {ch : Chip} {i : Nat} : ch.overflows i = false ↔ ch.offset.toNat + i ≤ 0xFF :=
  decide_eq_false_iff_not.trans Nat.not_lt

/-- The vector of an `Inject` is the sum of offset and line as bytes (R81). -/
theorem injectEvent_eq (ch : Chip) (i : Nat) : ch.injectEvent i = .inject (ch.offset + BitVec.ofNat 8 i) := by
  simp only [Chip.injectEvent, Chip.vectorSum, Event.inject.injEq]
  apply BitVec.eq_of_toNat_eq
  simp

theorem mem_pendingLines {ch : Chip} {n : Nat} : n ∈ ch.pendingLines ↔ bit ch.irr n = true := by
  simp only [Chip.pendingLines, List.mem_filter, mem_chipLines]
  exact ⟨fun h => h.2, fun h => ⟨lt_of_bit h, h⟩⟩

/-- `ack` names a line exactly where R143's precondition holds. -/
theorem ackLine_eq_some {ch : Chip} {v : Byte} {i : Nat} :
    ch.ackLine v = some i ↔ v.toNat = ch.offset.toNat + i ∧ i < 8 ∧ bit ch.irr i = true := by
  unfold Chip.ackLine
  split
  · simp; omega
  · split
    · simp; omega
    · split
      · rename_i h1 h2 h3
        constructor
        · intro h; cases h; exact ⟨by omega, by omega, h3⟩
        · rintro ⟨hv, -, -⟩; congr 1; omega
      · rename_i h1 h2 h3
        simp only [reduceCtorEq, false_iff, not_and]
        rintro hv - hb
        apply h3
        rwa [show v.toNat - ch.offset.toNat = i by omega]

theorem ackLine_eq_none {ch : Chip} {v : Byte} :
    ch.ackLine v = none ↔ v.toNat < ch.offset.toNat ∨ ch.offset.toNat + 7 < v.toNat ∨
      bit ch.irr (v.toNat - ch.offset.toNat) = false := by
  unfold Chip.ackLine
  split
  · simp; omega
  · split
    · simp; omega
    · split
      · simp_all; omega
      · simp_all

/-! ### The chip-level operations -/

/-- What a chip-level assertion can do (R140, R141). -/
theorem chipAssert_cases (c : ChipId) (line : Byte) (s : State) :
    (8 ≤ line.toNat ∧ chipAssert c line s = s.raise .irqLineRange (some c) line.toNat) ∨
    (line.toNat < 8 ∧ ((s.chip c).initStage ≠ .ready ∨ bit (s.chip c).imr line.toNat = true) ∧
      chipAssert c line s = s) ∨
    (line.toNat < 8 ∧ (s.chip c).initStage = .ready ∧ bit (s.chip c).imr line.toNat = false ∧
      0xFF < (s.chip c).offset.toNat + line.toNat ∧
      chipAssert c line s = s.raise .vectorOverflow (some c) ((s.chip c).offset.toNat + line.toNat)) ∨
    (line.toNat < 8 ∧ (s.chip c).initStage = .ready ∧ bit (s.chip c).imr line.toNat = false ∧
      (s.chip c).offset.toNat + line.toNat ≤ 0xFF ∧
      chipAssert c line s =
        (s.setChip c { s.chip c with irr := (s.chip c).irr ||| lineBit line.toNat }).emit
          (.inject ((s.chip c).offset + line))) := by
  have hv : (s.chip c).injectEvent line.toNat = .inject ((s.chip c).offset + line) := by
    rw [injectEvent_eq, BitVec.ofNat_toNat, BitVec.setWidth_eq]
  unfold chipAssert
  by_cases h1 : 8 ≤ line.toNat
  · exact .inl ⟨h1, by simp [h1]⟩
  have h1' : line.toNat < 8 := by omega
  by_cases h2 : (s.chip c).initStage = .ready
  · by_cases h3 : (s.chip c).masked line.toNat = true
    · exact .inr (.inl ⟨h1', .inr h3, by simp [h1, h2, h3]⟩)
    · have h3' : bit (s.chip c).imr line.toNat = false := by simpa [Chip.masked] using h3
      by_cases h4 : 0xFF < (s.chip c).offset.toNat + line.toNat
      · exact .inr (.inr (.inl ⟨h1', h2, h3', h4, by simp [h1, h2, h3, h4, Chip.vectorSum]⟩))
      · exact .inr (.inr (.inr ⟨h1', h2, h3', by omega, by simp [h1, h2, h3, h4, hv]⟩))
  · exact .inr (.inl ⟨h1', .inl h2, by simp [h1, h2]⟩)

/-- What a chip-level acknowledgment can do (R143, R144). -/
theorem chipAck_cases (c : ChipId) (v : Byte) (s : State) :
    ((s.chip c).ackLine v = none ∧ chipAck c v s = s.raise .ackNotPending (some c) v.toNat) ∨
    ∃ i, (s.chip c).ackLine v = some i ∧ i < 8 ∧ bit (s.chip c).irr i = true ∧
      v.toNat = (s.chip c).offset.toNat + i ∧
      chipAck c v s = s.setChip c { s.chip c with
        irr := (s.chip c).irr &&& ~~~(lineBit i), isr := (s.chip c).isr ||| lineBit i } := by
  unfold chipAck
  cases h : (s.chip c).ackLine v with
  | none => exact .inl ⟨rfl, by simp only [h]⟩
  | some i =>
    obtain ⟨hv, hi, hb⟩ := ackLine_eq_some.mp h
    exact .inr ⟨i, rfl, hi, hb, hv, by simp only [h]⟩

/-- What finishing initialization can do (R123): the lowest pending line that overflows faults, or the chip is `Ready` and
every pending line is requested. -/
theorem finishInit_cases (c : ChipId) (s : State) :
    (∃ i, i < 8 ∧ bit (s.chip c).irr i = true ∧ 0xFF < (s.chip c).offset.toNat + i ∧
      (∀ j < i, bit (s.chip c).irr j = true → (s.chip c).offset.toNat + j ≤ 0xFF) ∧
      finishInit c s = s.raise .vectorOverflow (some c) ((s.chip c).offset.toNat + i)) ∨
    ((∀ n, bit (s.chip c).irr n = true → (s.chip c).offset.toNat + n ≤ 0xFF) ∧
      finishInit c s = (s.setChip c { s.chip c with initStage := .ready }).emitAll
        ((s.chip c).pendingLines.map (s.chip c).injectEvent)) := by
  unfold finishInit
  simp only [Chip.pendingLines, List.find?_filter, Bool.decide_and, Bool.decide_eq_true]
  rcases find_chipLines (fun n => bit (s.chip c).irr n && (s.chip c).overflows n) with ⟨h, hz⟩ | ⟨i, h, hi, hb, hlow⟩
  · refine .inr ⟨fun n hn => ?_, by simp only [h]⟩
    simpa [hn] using hz n (lt_of_bit hn)
  · simp only [Bool.and_eq_true, overflows_eq_true] at hb
    refine .inl ⟨i, hi, hb.1, hb.2, fun j hj hbj => ?_, by simp only [h, Chip.vectorSum]⟩
    simpa [hbj] using hlow j hj

/-- What a cascade assertion can do (R160, R161). -/
theorem cascadeAssert_cases (line : Byte) (s : State) :
    (15 < line.toNat ∧ cascadeAssert line s = s.raise .irqLineRange none line.toNat) ∨
    (line.toNat < 8 ∧ cascadeAssert line s = chipAssert .master line s) ∨
    (8 ≤ line.toNat ∧ line.toNat ≤ 15 ∧ (chipAssert .master s.master.cascadeLine s).fault ≠ none ∧
      cascadeAssert line s = chipAssert .master s.master.cascadeLine s) ∨
    (8 ≤ line.toNat ∧ line.toNat ≤ 15 ∧ (chipAssert .master s.master.cascadeLine s).fault = none ∧
      cascadeAssert line s =
        chipAssert .slave (line - 8#8) (chipAssert .master s.master.cascadeLine s)) := by
  unfold cascadeAssert
  by_cases h1 : 15 < line.toNat
  · exact .inl ⟨h1, by simp [h1]⟩
  by_cases h2 : line.toNat < 8
  · exact .inr (.inl ⟨h2, by simp [h1, h2]⟩)
  by_cases h3 : (chipAssert .master s.master.cascadeLine s).fault = none
  · exact .inr (.inr (.inr ⟨by omega, by omega, h3, by simp [h1, h2, h3, slaveLine]⟩))
  · exact .inr (.inr (.inl ⟨by omega, by omega, h3, by simp [h1, h2, h3]⟩))

/-- What a cascade acknowledgment can do (R163). -/
theorem cascadeAck_cases (v : Byte) (s : State) :
    (s.slave.offset.toNat ≤ v.toNat ∧ cascadeAck v s = chipAck .slave v s) ∨
    (v.toNat < s.slave.offset.toNat ∧ cascadeAck v s = chipAck .master v s) := by
  unfold cascadeAck
  by_cases h : s.slave.offset.toNat ≤ v.toNat
  · exact .inl ⟨h, by simp [h]⟩
  · exact .inr ⟨by omega, by simp [h]⟩

end Sys2Proof.Machine
end

