-- ==== Sys2Proof/Laws/Exec.lean ====
section
/-! SUPPORT. One inversion lemma per meaning: if it answers a next state, the conditions it ran under and what that state
is. `s.begun` is the state an operation starts from (R17). -/

namespace Sys2Proof.Machine

theorem execIcw1_next {c : ChipId} {b : Byte} {s t : State} (h : execIcw1 c b s = .next t) :
    s.fault = none ∧
    t = if (s.chip c).irr = 0x00#8
      then s.begun.setChip c { s.chip c with imr := 0x00#8, initStage := .awaitingOffset }
      else (s.begun.setChip c { s.chip c with imr := 0x00#8, initStage := .awaitingOffset }).emit .cancelAll := by
  obtain ⟨hf, h⟩ := running_next h
  simp only [State.begun_chip, Host.Outcome.next.injEq] at h
  exact ⟨hf, h.symm⟩

theorem execIcw1Bad_next {c : ChipId} {b : Byte} {s t : State} (h : execIcw1Bad c b s = .next t) :
    s.fault = none ∧ t = s.begun.raise .icw1Unsupported (some c) b.toNat := by
  obtain ⟨hf, h⟩ := running_next h
  cases h
  exact ⟨hf, rfl⟩

theorem execOcw3Rirr_next {c : ChipId} {s t : State} (h : execOcw3Rirr c s = .next t) :
    s.fault = none ∧ t = s.begun.setChip c { s.chip c with latchedStatus := (s.chip c).irr } := by
  obtain ⟨hf, h⟩ := running_next h
  simp only [State.begun_chip, Host.Outcome.next.injEq] at h
  exact ⟨hf, h.symm⟩

theorem execOcw3Risr_next {c : ChipId} {s t : State} (h : execOcw3Risr c s = .next t) :
    s.fault = none ∧ t = s.begun.setChip c { s.chip c with latchedStatus := (s.chip c).isr } := by
  obtain ⟨hf, h⟩ := running_next h
  simp only [State.begun_chip, Host.Outcome.next.injEq] at h
  exact ⟨hf, h.symm⟩

theorem execOcw2Eoi_next {c : ChipId} {s t : State} (h : execOcw2Eoi c s = .next t) :
    s.fault = none ∧ t = s.begun.setChip c { s.chip c with isr := clearLowest (s.chip c).isr } := by
  obtain ⟨hf, h⟩ := running_next h
  simp only [State.begun_chip, Host.Outcome.next.injEq] at h
  exact ⟨hf, h.symm⟩

theorem execCmdUnrec_next {c : ChipId} {b : Byte} {s t : State} (h : execCmdUnrec c b s = .next t) :
    s.fault = none ∧ t = s.begun := by
  obtain ⟨hf, h⟩ := running_next h
  cases h
  exact ⟨hf, rfl⟩

theorem execRdcmd_next {c : ChipId} {s t : State} (h : execRdcmd c s = .next t) :
    s.fault = none ∧ t = s.begun.reply (.byte (s.chip c).latchedStatus) := by
  obtain ⟨hf, h⟩ := running_next h
  simp only [State.begun_chip, Host.Outcome.next.injEq] at h
  exact ⟨hf, h.symm⟩

theorem execRddata_next {c : ChipId} {s t : State} (h : execRddata c s = .next t) :
    s.fault = none ∧ t = s.begun.reply (.byte (s.chip c).imr) := by
  obtain ⟨hf, h⟩ := running_next h
  simp only [State.begun_chip, Host.Outcome.next.injEq] at h
  exact ⟨hf, h.symm⟩

theorem execIsinit_next {c : ChipId} {s t : State} (h : execIsinit c s = .next t) :
    s.fault = none ∧ t = s.begun.reply (.flag (s.chip c).isInitialized) := by
  obtain ⟨hf, h⟩ := running_next h
  simp only [State.begun_chip, Host.Outcome.next.injEq] at h
  exact ⟨hf, h.symm⟩

theorem execIcw2_next {c : ChipId} {b : Byte} {s t : State} (h : execIcw2 c b s = .next t) :
    s.fault = none ∧ (s.chip c).initStage = .awaitingOffset ∧
    t = s.begun.setChip c { s.chip c with offset := b, initStage := .awaitingCascadeWord } := by
  obtain ⟨hf, h⟩ := running_next h
  obtain ⟨hm, h⟩ := atStage_next h
  simp only [State.begun_chip, Host.Outcome.next.injEq] at h
  exact ⟨hf, by simpa using hm, h.symm⟩

theorem execIcw3_next {c : ChipId} {b : Byte} {s t : State} (h : execIcw3 c b s = .next t) :
    s.fault = none ∧ (s.chip c).initStage = .awaitingCascadeWord ∧
    t = s.begun.setChip c { s.chip c with cascadeLine := b, initStage := .awaitingMode } := by
  obtain ⟨hf, h⟩ := running_next h
  obtain ⟨hm, h⟩ := atStage_next h
  simp only [State.begun_chip, Host.Outcome.next.injEq] at h
  exact ⟨hf, by simpa using hm, h.symm⟩

theorem execIcw4_next {c : ChipId} {s t : State} (h : execIcw4 c s = .next t) :
    s.fault = none ∧ (s.chip c).initStage = .awaitingMode ∧ t = finishInit c s.begun := by
  obtain ⟨hf, h⟩ := running_next h
  obtain ⟨hm, h⟩ := atStage_next h
  cases h
  exact ⟨hf, by simpa using hm, rfl⟩

theorem execIcw4Bad_next {c : ChipId} {b : Byte} {s t : State} (h : execIcw4Bad c b s = .next t) :
    s.fault = none ∧ (s.chip c).initStage = .awaitingMode ∧
    t = s.begun.raise .icw4Unsupported (some c) b.toNat := by
  obtain ⟨hf, h⟩ := running_next h
  obtain ⟨hm, h⟩ := atStage_next h
  cases h
  exact ⟨hf, by simpa using hm, rfl⟩

theorem execOcw1_next {c : ChipId} {b : Byte} {s t : State} (h : execOcw1 c b s = .next t) :
    s.fault = none ∧ ((s.chip c).initStage = .notInitialized ∨ (s.chip c).initStage = .ready) ∧
    t = s.begun.setChip c { s.chip c with imr := b } := by
  obtain ⟨hf, h⟩ := running_next h
  obtain ⟨hm, h⟩ := atStage_next h
  simp only [State.begun_chip, Host.Outcome.next.injEq] at h
  exact ⟨hf, by simpa using hm, h.symm⟩

theorem execAssertChip_next {c : ChipId} {line : Byte} {s t : State} (h : execAssertChip c line s = .next t) :
    s.fault = none ∧ t = chipAssert c line s.begun := by
  obtain ⟨hf, h⟩ := running_next h
  cases h
  exact ⟨hf, rfl⟩

theorem execAssertChipRange_next {c : ChipId} {line : Byte} {s t : State}
    (h : execAssertChipRange c line s = .next t) : s.fault = none ∧ t = chipAssert c line s.begun := by
  obtain ⟨hf, h⟩ := running_next h
  cases h
  exact ⟨hf, rfl⟩

theorem execAckChip_next {c : ChipId} {v : Byte} {s t : State} (h : execAckChip c v s = .next t) :
    s.fault = none ∧ t = chipAck c v s.begun := by
  obtain ⟨hf, h⟩ := running_next h
  cases h
  exact ⟨hf, rfl⟩

theorem execAssertLo_next {line : Byte} {s t : State} (h : execAssertLo line s = .next t) :
    s.fault = none ∧ t = cascadeAssert line s.begun := by
  obtain ⟨hf, h⟩ := running_next h
  cases h
  exact ⟨hf, rfl⟩

theorem execAssertHi_next {line : Byte} {s t : State} (h : execAssertHi line s = .next t) :
    s.fault = none ∧ t = cascadeAssert line s.begun := by
  obtain ⟨hf, h⟩ := running_next h
  cases h
  exact ⟨hf, rfl⟩

theorem execAssertRange_next {line : Byte} {s t : State} (h : execAssertRange line s = .next t) :
    s.fault = none ∧ t = cascadeAssert line s.begun := by
  obtain ⟨hf, h⟩ := running_next h
  cases h
  exact ⟨hf, rfl⟩

theorem execAck_next {v : Byte} {s t : State} (h : execAck v s = .next t) :
    s.fault = none ∧ t = cascadeAck v s.begun := by
  obtain ⟨hf, h⟩ := running_next h
  cases h
  exact ⟨hf, rfl⟩

/-- No operation answers a next state from a faulted state (R180). -/
theorem exec_next_running {i : Instr} {s t : State} (h : exec i s = .next t) : s.fault = none := by
  cases i with
  | icw1 c b => exact (execIcw1_next (b := b) h).1
  | icw1Bad c b => exact (execIcw1Bad_next h).1
  | ocw3Rirr c => exact (execOcw3Rirr_next h).1
  | ocw3Risr c => exact (execOcw3Risr_next h).1
  | ocw2Eoi c => exact (execOcw2Eoi_next h).1
  | cmdUnrec c b => exact (execCmdUnrec_next (c := c) (b := b) h).1
  | rdcmd c => exact (execRdcmd_next h).1
  | icw2 c b => exact (execIcw2_next h).1
  | icw3 c b => exact (execIcw3_next h).1
  | icw4 c => exact (execIcw4_next h).1
  | icw4Bad c b => exact (execIcw4Bad_next h).1
  | ocw1 c b => exact (execOcw1_next h).1
  | rddata c => exact (execRddata_next h).1
  | assertChip c line => exact (execAssertChip_next h).1
  | assertChipRange c line => exact (execAssertChipRange_next h).1
  | ackChip c v => exact (execAckChip_next h).1
  | assertLo line => exact (execAssertLo_next h).1
  | assertHi line => exact (execAssertHi_next h).1
  | assertRange line => exact (execAssertRange_next h).1
  | ack v => exact (execAck_next h).1
  | isinit c => exact (execIsinit_next h).1

end Sys2Proof.Machine
end

