-- ==== Sys2Proof/Laws/Step.lean ====
section
/-! SUPPORT. What a step can do, said once: its call, the transaction the call stands for, and the operation. -/

namespace Sys2Proof.Machine

/-- A call's operation is the decoder's answer on the call's transaction word. -/
theorem decodeCall_ok {s : State} {call : HostCall} {i : Instr} (h : decodeCall s call = .ok i) :
    ∃ x, routeCall s.config call = .ok x ∧ decode s.config (x.word s) = .ok i := by
  unfold decodeCall at h
  split at h
  · cases h
  · rename_i x hx
    refine ⟨x, hx, ?_⟩
    split at h
    · rename_i hd; cases h; exact hd
    · cases h
    · cases h

/-- If a step answers a next state, the block was running, the host made a call, and the state is that of the call's
operation. -/
theorem step_next {s t : State} (h : step s = .next t) :
    s.fault = none ∧ ∃ call rest i, s.hostCalls = call :: rest ∧ decodeCall s call = .ok i ∧
      exec i (s.withCalls rest) = .next t := by
  unfold step fetch at h
  split at h
  · cases h
  · cases h
  · rename_i i s' hfetch
    split at hfetch
    · cases hfetch
    · cases hfetch
    · rename_i call rest hf hh
      split at hfetch
      · rename_i j hd
        cases hfetch
        exact ⟨hf, call, rest, i, hh, hd, h⟩
      · cases hfetch

/-- A run of several steps begins with one step. -/
theorem run_succ {s t : State} (n : Nat) (h : step s = .next t) :
    Host.Core.run Sys2Proof.core (n + 1) s = Host.Core.run Sys2Proof.core n t := by
  have h' : Sys2Proof.core.step s = .next t := h
  simp only [Host.Core.run, h']

/-- The stage field of a transaction is the code of one of the five stages, so decoding it undoes the code (R26). -/
theorem ofCode_code (stage : Stage) : Stage.ofCode stage.code = some stage := by cases stage <;> rfl

theorem code_le_four (stage : Stage) : stage.code.toNat ≤ 4 := by cases stage <;> decide

end Sys2Proof.Machine
end

