-- ==== Sys2Proof/Laws/Effects.lean ====
section
/-! SUPPORT. The inversion lemma of the whole dispatch: if an operation answers a next state, what it did to each chip, to
the trace, to the fault state and to the rest. Rules about the whole block follow from it chip by chip. -/

namespace Sys2Proof.Machine

/-- What an operation `i` may do to chip `c`, in register state `ch`: the chip's new registers and the events emitted. -/
inductive ChipEffect (i : Instr) (c : ChipId) (ch : Chip) : Chip → List Event → Prop where
  | unchanged : ChipEffect i c ch ch []
  | icw1 (b : Byte) : i = .icw1 c b →
      ChipEffect i c ch { ch with imr := 0x00#8, initStage := .awaitingOffset }
        (if ch.irr = 0x00#8 then [] else [.cancelAll])
  | latchRequests : i = .ocw3Rirr c → ChipEffect i c ch { ch with latchedStatus := ch.irr } []
  | latchService : i = .ocw3Risr c → ChipEffect i c ch { ch with latchedStatus := ch.isr } []
  | eoi : i = .ocw2Eoi c → ChipEffect i c ch { ch with isr := clearLowest ch.isr } []
  | icw2 (b : Byte) : i = .icw2 c b → ch.initStage = .awaitingOffset →
      ChipEffect i c ch { ch with offset := b, initStage := .awaitingCascadeWord } []
  | icw3 (b : Byte) : i = .icw3 c b → ch.initStage = .awaitingCascadeWord →
      ChipEffect i c ch { ch with cascadeLine := b, initStage := .awaitingMode } []
  | icw4 : i = .icw4 c → ch.initStage = .awaitingMode →
      (∀ n, bit ch.irr n = true → ch.offset.toNat + n ≤ 0xFF) →
      ChipEffect i c ch { ch with initStage := .ready } (ch.pendingLines.map ch.injectEvent)
  | ocw1 (b : Byte) : i = .ocw1 c b → ch.initStage = .notInitialized ∨ ch.initStage = .ready →
      ChipEffect i c ch { ch with imr := b } []
  | asserted (line : Byte) : isAssertion i = true → formChip i ≠ some c.other → line.toNat < 8 →
      ch.initStage = .ready → bit ch.imr line.toNat = false → ch.offset.toNat + line.toNat ≤ 0xFF →
      ChipEffect i c ch { ch with irr := ch.irr ||| lineBit line.toNat } [.inject (ch.offset + line)]
  | acknowledged (n : Nat) : isAcknowledgment i = true → formChip i ≠ some c.other → n < 8 → bit ch.irr n = true →
      ChipEffect i c ch { ch with irr := ch.irr &&& ~~~(lineBit n), isr := ch.isr ||| lineBit n } []

/-- What an operation does to the block: one effect on each chip, the master's events before the slave's, a fault record
only as R181 to R185 give it, and nothing to the parameters and the calls to come. -/
structure BlockEffect (i : Instr) (s t : State) : Prop where
  chips : ∃ em es, ChipEffect i .master s.master t.master em ∧ ChipEffect i .slave s.slave t.slave es ∧
    t.trace = s.trace ++ em ++ es
  record : i.wf s.config = true → ∀ r ∈ t.fault, r.wf s.config = true
  config : t.config = s.config
  hostCalls : t.hostCalls = s.hostCalls

/-- An operation on one chip only. -/
theorem BlockEffect.of_chip {i : Instr} {s t : State} {es : List Event} (c : ChipId)
    (h : ChipEffect i c (s.chip c) (t.chip c) es) (ho : t.chip c.other = s.chip c.other)
    (ht : t.trace = s.trace ++ es) (hr : i.wf s.config = true → ∀ r ∈ t.fault, r.wf s.config = true)
    (hk : t.config = s.config) (hh : t.hostCalls = s.hostCalls) : BlockEffect i s t := by
  refine ⟨?_, hr, hk, hh⟩
  cases c with
  | master =>
    have ho' : t.slave = s.slave := ho
    exact ⟨es, [], h, ho' ▸ .unchanged, by simp [ht]⟩
  | slave =>
    have ho' : t.master = s.master := ho
    exact ⟨[], es, ho' ▸ .unchanged, h, by simp [ht]⟩

/-- The chip part of an operation that leaves the fault state alone. -/
theorem BlockEffect.of_setChip {i : Instr} {s : State} {ch : Chip} {es : List Event} (c : ChipId)
    (hf : s.fault = none) (h : ChipEffect i c (s.chip c) ch es) :
    BlockEffect i s ((s.setChip c ch).emitAll es) :=
  .of_chip c (es := es) (by simpa using h) (by simp) (by simp) (by simp [hf]) (by simp) (by simp)

/-- An operation that only raises a fault. -/
theorem BlockEffect.of_raise {i : Instr} {s : State} (code : FaultCode) (h : Option ChipId) (v : Nat)
    (hr : i.wf s.config = true → (FaultRecord.mk code h v).wf s.config = true) :
    BlockEffect i s (s.raise code h v) :=
  .of_chip .master (es := []) (by simpa using .unchanged) (by simp) (by simp) (by simpa using hr) (by simp) (by simp)

/-- An operation without effect on the block. -/
theorem BlockEffect.of_idle {i : Instr} {s t : State} (hm : t.master = s.master) (hs : t.slave = s.slave)
    (ht : t.trace = s.trace) (hf : t.fault = none) (hk : t.config = s.config) (hh : t.hostCalls = s.hostCalls) :
    BlockEffect i s t :=
  .of_chip .master (es := []) (by simpa [hm] using .unchanged) hs (by simp [ht]) (by simp [hf]) hk hh

theorem State.emit_eq_emitAll (s : State) (e : Event) : s.emit e = s.emitAll [e] := rfl

theorem State.emitAll_nil (s : State) : s.emitAll [] = s := by
  apply State.ext_chip <;> simp

/-- The chip-level assertion as an effect. -/
theorem chipAssert_effect {i : Instr} {s : State} (hi : isAssertion i = true) (c : ChipId)
    (hc : formChip i ≠ some c.other) (line : Byte) (hf : s.fault = none) :
    BlockEffect i s (chipAssert c line s) := by
  rcases chipAssert_cases c line s with ⟨h, e⟩ | ⟨_, _, e⟩ | ⟨_, _, _, h, e⟩ | ⟨h1, h2, h3, h4, e⟩ <;> rw [e]
  · refine .of_raise _ _ _ fun _ => ?_
    have := line.isLt
    simp [FaultRecord.wf]; omega
  · exact .of_idle rfl rfl rfl hf rfl rfl
  · refine .of_raise _ _ _ fun _ => ?_
    have := (s.chip c).offset.isLt
    simp [FaultRecord.wf]; omega
  · exact .of_setChip c hf (.asserted line hi hc h1 h2 h3 h4)

/-- The chip-level acknowledgment as an effect. -/
theorem chipAck_effect {i : Instr} {s : State} (hi : isAcknowledgment i = true) (c : ChipId)
    (hc : formChip i ≠ some c.other) (v : Byte) (hf : s.fault = none) : BlockEffect i s (chipAck c v s) := by
  rcases chipAck_cases c v s with ⟨_, e⟩ | ⟨n, _, h1, h2, _, e⟩ <;> rw [e]
  · refine .of_raise _ _ _ fun _ => ?_
    have := v.isLt
    simp [FaultRecord.wf]; omega
  · rw [← State.emitAll_nil (s.setChip c _)]
    exact .of_setChip c hf (.acknowledged n hi hc h1 h2)

/-- A master's effect followed by a slave's. -/
theorem BlockEffect.trans {i : Instr} {s m t : State} {em es : List Event}
    (hm : ChipEffect i .master s.master m.master em) (hms : m.slave = s.slave) (hmt : m.trace = s.trace ++ em)
    (hmk : m.config = s.config) (hmh : m.hostCalls = s.hostCalls)
    (hs : ChipEffect i .slave m.slave t.slave es) (htm : t.master = m.master) (htt : t.trace = m.trace ++ es)
    (hr : i.wf s.config = true → ∀ r ∈ t.fault, r.wf s.config = true)
    (hk : t.config = m.config) (hh : t.hostCalls = m.hostCalls) : BlockEffect i s t :=
  ⟨⟨em, es, htm ▸ hm, hms ▸ hs, by rw [htt, hmt]⟩, hr, hk.trans hmk, hh.trans hmh⟩

/-- What a chip-level assertion that raises no fault does to its chip. -/
theorem chipAssert_chip_effect {i : Instr} {s : State} (hi : isAssertion i = true) (c : ChipId)
    (hc : formChip i ≠ some c.other) (line : Byte) :
    ∃ es, ChipEffect i c (s.chip c) ((chipAssert c line s).chip c) es ∧
      (chipAssert c line s).trace = s.trace ++ es ∧ (chipAssert c line s).chip c.other = s.chip c.other ∧
      (chipAssert c line s).config = s.config ∧ (chipAssert c line s).hostCalls = s.hostCalls ∧
      (s.fault = none → ∀ r ∈ (chipAssert c line s).fault, r.wf s.config = true) := by
  rcases chipAssert_cases c line s with ⟨h, e⟩ | ⟨_, _, e⟩ | ⟨_, _, _, h, e⟩ | ⟨h1, h2, h3, h4, e⟩ <;> rw [e]
  · refine ⟨[], by simpa using .unchanged, by simp, by simp, rfl, rfl, fun _ => ?_⟩
    have := line.isLt
    simp [FaultRecord.wf]; omega
  · exact ⟨[], .unchanged, by simp, rfl, rfl, rfl, fun hf => by simp [hf]⟩
  · refine ⟨[], by simpa using .unchanged, by simp, by simp, rfl, rfl, fun _ => ?_⟩
    have := (s.chip c).offset.isLt
    simp [FaultRecord.wf]; omega
  · exact ⟨_, by simpa using .asserted line hi hc h1 h2 h3 h4, by simp, by simp, by simp, by simp,
      fun hf => by simp [hf]⟩

/-- The cascade's assertion as an effect. -/
theorem cascadeAssert_effect {i : Instr} {s : State} (hi : isAssertion i = true) (hc : formChip i = none)
    (line : Byte) (hf : s.fault = none) : BlockEffect i s (cascadeAssert line s) := by
  have hn : ∀ c : ChipId, formChip i ≠ some c := by simp [hc]
  rcases cascadeAssert_cases line s with ⟨h, e⟩ | ⟨_, e⟩ | ⟨_, _, _, e⟩ | ⟨_, _, h, e⟩ <;> rw [e]
  · refine .of_raise _ _ _ fun _ => ?_
    have := line.isLt
    simp [FaultRecord.wf]; omega
  · exact chipAssert_effect hi _ (hn _) _ hf
  · exact chipAssert_effect hi _ (hn _) _ hf
  · obtain ⟨em, hm, hmt, hms, hmk, hmh, -⟩ :=
      chipAssert_chip_effect (s := s) hi .master (hn _) s.master.cascadeLine
    obtain ⟨es, hs, htt, htm, hk, hh, hr⟩ :=
      chipAssert_chip_effect (s := chipAssert .master s.master.cascadeLine s) hi .slave (hn _) (line - 8#8)
    exact .trans hm hms hmt hmk hmh hs htm htt (fun _ => hmk ▸ hr h) hk hh

/-- The cascade's acknowledgment as an effect. -/
theorem cascadeAck_effect {i : Instr} {s : State} (hi : isAcknowledgment i = true) (hc : formChip i = none)
    (v : Byte) (hf : s.fault = none) : BlockEffect i s (cascadeAck v s) := by
  have hn : ∀ c : ChipId, formChip i ≠ some c := by simp [hc]
  rcases cascadeAck_cases v s with ⟨_, e⟩ | ⟨_, e⟩ <;> rw [e] <;> exact chipAck_effect hi _ (hn _) _ hf

/-- An effect on the state an operation starts from is one on the state before it. -/
theorem BlockEffect.of_begun {i : Instr} {s t : State} (h : BlockEffect i s.begun t) : BlockEffect i s t :=
  ⟨h.chips, h.record, h.config, h.hostCalls⟩

/-- The inversion lemma: an operation that answers a next state has one of these effects. -/
theorem exec_effect {i : Instr} {s t : State} (h : exec i s = .next t) : BlockEffect i s t := by
  have hf : s.begun.fault = none := exec_next_running h
  apply BlockEffect.of_begun
  have set {c : ChipId} {ch : Chip} (he : ChipEffect i c (s.chip c) ch []) :
      BlockEffect i s.begun (s.begun.setChip c ch) := by
    rw [← State.emitAll_nil (s.begun.setChip c ch)]
    exact .of_setChip c hf (by simpa using he)
  cases i with
  | icw1 c b =>
    obtain ⟨-, rfl⟩ := execIcw1_next (b := b) h
    have he := BlockEffect.of_setChip c hf (ChipEffect.icw1 (ch := s.chip c) b rfl)
    split_ifs at he ⊢
    · simpa [State.emitAll_nil] using he
    · exact he
  | icw1Bad c b =>
    obtain ⟨-, rfl⟩ := execIcw1Bad_next h
    refine .of_raise _ _ _ fun hw => ?_
    have hb : b.toNat < 256 := b.isLt
    simpa [FaultRecord.wf, Instr.wf, and_comm, hb] using hw
  | ocw3Rirr c => obtain ⟨-, rfl⟩ := execOcw3Rirr_next h; exact set (.latchRequests rfl)
  | ocw3Risr c => obtain ⟨-, rfl⟩ := execOcw3Risr_next h; exact set (.latchService rfl)
  | ocw2Eoi c => obtain ⟨-, rfl⟩ := execOcw2Eoi_next h; exact set (.eoi rfl)
  | cmdUnrec c b =>
    obtain ⟨-, rfl⟩ := execCmdUnrec_next (c := c) (b := b) h
    exact .of_idle rfl rfl rfl hf rfl rfl
  | rdcmd c => obtain ⟨-, rfl⟩ := execRdcmd_next h; exact .of_idle rfl rfl rfl hf rfl rfl
  | icw2 c b => obtain ⟨-, hs, rfl⟩ := execIcw2_next h; exact set (.icw2 b rfl hs)
  | icw3 c b => obtain ⟨-, hs, rfl⟩ := execIcw3_next h; exact set (.icw3 b rfl hs)
  | icw4 c =>
    obtain ⟨-, hs, rfl⟩ := execIcw4_next h
    rcases finishInit_cases c s.begun with ⟨n, hn, _, ho, _, e⟩ | ⟨hall, e⟩ <;> rw [e]
    · refine .of_raise _ _ _ fun _ => ?_
      have := (s.begun.chip c).offset.isLt
      simp only [FaultRecord.wf, Bool.and_eq_true, decide_eq_true_eq]; omega
    · exact .of_setChip c hf (.icw4 rfl (by simpa using hs) hall)
  | icw4Bad c b =>
    obtain ⟨-, hs, rfl⟩ := execIcw4Bad_next h
    refine .of_raise _ _ _ fun hw => ?_
    have hb : b.toNat < 256 := b.isLt
    simpa [FaultRecord.wf, Instr.wf, hb] using hw
  | ocw1 c b => obtain ⟨-, hs, rfl⟩ := execOcw1_next h; exact set (.ocw1 b rfl hs)
  | rddata c => obtain ⟨-, rfl⟩ := execRddata_next h; exact .of_idle rfl rfl rfl hf rfl rfl
  | assertChip c line =>
    obtain ⟨-, rfl⟩ := execAssertChip_next h
    exact chipAssert_effect rfl c (by simp [formChip]) line hf
  | assertChipRange c line =>
    obtain ⟨-, rfl⟩ := execAssertChipRange_next h
    exact chipAssert_effect rfl c (by simp [formChip]) line hf
  | ackChip c v =>
    obtain ⟨-, rfl⟩ := execAckChip_next h
    exact chipAck_effect rfl c (by simp [formChip]) v hf
  | assertLo line => obtain ⟨-, rfl⟩ := execAssertLo_next h; exact cascadeAssert_effect rfl rfl line hf
  | assertHi line => obtain ⟨-, rfl⟩ := execAssertHi_next h; exact cascadeAssert_effect rfl rfl line hf
  | assertRange line => obtain ⟨-, rfl⟩ := execAssertRange_next h; exact cascadeAssert_effect rfl rfl line hf
  | ack v => obtain ⟨-, rfl⟩ := execAck_next h; exact cascadeAck_effect rfl rfl v hf
  | isinit c => obtain ⟨-, rfl⟩ := execIsinit_next h; exact .of_idle rfl rfl rfl hf rfl rfl

/-- The same, for one chip. -/
theorem exec_chip_effect {i : Instr} {s t : State} (h : exec i s = .next t) (c : ChipId) :
    ∃ es, ChipEffect i c (s.chip c) (t.chip c) es ∧ ∀ e ∈ es, e ∈ t.trace := by
  obtain ⟨em, es, hm, hs, ht⟩ := (exec_effect h).chips
  cases c with
  | master => exact ⟨em, hm, fun e he => by simp [ht, he]⟩
  | slave => exact ⟨es, hs, fun e he => by simp [ht, he]⟩

end Sys2Proof.Machine
end

