-- ==== Sys2Proof/Laws/PerInstr.lean ====
section
/-! SUPPORT. Statements made per operation form: the encoder writes each form's own op code (R71), and no reserved one. -/

namespace Sys2Proof.Laws.EncodedOp

/-- The op field of the form's word is the form's op code, which is none of the reserved ones. -/
def Statement (i : Instr) : Prop :=
  ∀ k : Config, (opField (encode k i)).toNat = i.opCode ∧ i.opCode ≤ 8

theorem icw1 (c : ChipId) (b : Byte) : Statement (.icw1 c b) := fun k => by simp [encode, Instr.opCode]
theorem icw1Bad (c : ChipId) (b : Byte) : Statement (.icw1Bad c b) := fun k => by simp [encode, Instr.opCode]
theorem ocw3Rirr (c : ChipId) : Statement (.ocw3Rirr c) := fun k => by simp [encode, Instr.opCode]
theorem ocw3Risr (c : ChipId) : Statement (.ocw3Risr c) := fun k => by simp [encode, Instr.opCode]
theorem ocw2Eoi (c : ChipId) : Statement (.ocw2Eoi c) := fun k => by simp [encode, Instr.opCode]
theorem cmdUnrec (c : ChipId) (b : Byte) : Statement (.cmdUnrec c b) := fun k => by simp [encode, Instr.opCode]
theorem rdcmd (c : ChipId) : Statement (.rdcmd c) := fun k => by simp [encode, Instr.opCode]
theorem icw2 (c : ChipId) (b : Byte) : Statement (.icw2 c b) := fun k => by simp [encode, Instr.opCode]
theorem icw3 (c : ChipId) (b : Byte) : Statement (.icw3 c b) := fun k => by simp [encode, Instr.opCode]
theorem icw4 (c : ChipId) : Statement (.icw4 c) := fun k => by simp [encode, Instr.opCode]
theorem icw4Bad (c : ChipId) (b : Byte) : Statement (.icw4Bad c b) := fun k => by simp [encode, Instr.opCode]
theorem ocw1 (c : ChipId) (b : Byte) : Statement (.ocw1 c b) := fun k => by simp [encode, Instr.opCode]
theorem rddata (c : ChipId) : Statement (.rddata c) := fun k => by simp [encode, Instr.opCode]
theorem assertChip (c : ChipId) (line : Byte) : Statement (.assertChip c line) := fun k => by
  simp [encode, Instr.opCode]
theorem assertChipRange (c : ChipId) (line : Byte) : Statement (.assertChipRange c line) := fun k => by
  simp [encode, Instr.opCode]
theorem ackChip (c : ChipId) (vector : Byte) : Statement (.ackChip c vector) := fun k => by
  simp [encode, Instr.opCode]
theorem assertLo (line : Byte) : Statement (.assertLo line) := fun k => by simp [encode, Instr.opCode]
theorem assertHi (line : Byte) : Statement (.assertHi line) := fun k => by simp [encode, Instr.opCode]
theorem assertRange (line : Byte) : Statement (.assertRange line) := fun k => by simp [encode, Instr.opCode]
theorem ack (vector : Byte) : Statement (.ack vector) := fun k => by simp [encode, Instr.opCode]
theorem isinit (c : ChipId) : Statement (.isinit c) := fun k => by simp [encode, Instr.opCode]

end Sys2Proof.Laws.EncodedOp
end

