-- ==== Sys2Proof/Tests/Slice0.lean ====
section
/-! SUPPORT. Tests of the model, each expected value taken from the spec (95_test_vectors.md, or by hand from the rule
named), and for every obligation with hypotheses a concrete state and operands that meet all of them. -/

namespace Sys2Proof.Tests

open Sys2Proof Sys2Proof.Machine

/-! ### Helpers -/

/-- What holds of the next state, false where there is none. -/
def after (o : Result) (p : State → Bool) : Bool :=
  match o with
  | .next t => p t
  | .fault _ => false
  | .refused _ => false

/-- The reason of a refusal, if there is one. -/
def refusal (o : Result) : Option Refusal :=
  match o with
  | .next _ => none
  | .fault _ => none
  | .refused r => some r

/-- The form a word decodes to. -/
def form (w : TxnWord) : Option Instr := (decode Config.default w).toOption

/-- A chip with the values a test vector lists. -/
def mk (st : Stage) (irr isr imr off : Byte) (cl : Byte := 0x00#8) (lat : Byte := 0x00#8) : Chip where
  irr := irr
  isr := isr
  imr := imr
  offset := off
  cascadeLine := cl
  initStage := st
  latchedStatus := lat

/-- A running block with the two chips given. -/
def blk (m s : Chip) : State := { State.reset with master := m, slave := s }

/-- A running block with the master given and the slave `Ready` at offset 0x70. -/
def withMaster (m : Chip) : State := blk m (mk .ready 0x00#8 0x00#8 0x00#8 0x70#8)

/-- The host makes one call. -/
def host (s : State) (call : HostCall) : Result := step (s.withCalls [call])

/-- `OUT port, b` -/
def out (port : Nat) (b : Byte) : HostCall := .portWrite port [b]

/-- The base state of CA1 to CA15. -/
def base : State :=
  blk (mk .ready 0x00#8 0x00#8 0x00#8 0x08#8 0x02#8) (mk .ready 0x00#8 0x00#8 0x00#8 0x70#8)

/-- A master `Ready` at offset 0x08 (IP1). -/
def ip1 : State := withMaster (mk .ready 0x00#8 0x00#8 0x00#8 0x08#8)

/-- A block whose master has faulted on the mode word 0x05 (program P5). -/
def faulted : State := { State.reset with fault := some ⟨.icw4Unsupported, some .master, 0x05⟩ }

/-- The parameter defaults with `ICW1_REQUIRE_IC4`. -/
def strict : Config := { Config.default with requireIc4 := true }

/-! ### WellFormed: one ill-formed term for each check -/

theorem test_wf_icw1 : (Instr.icw1 .master 0x12#8).wf Config.default = false := by decide
theorem test_wf_icw1_no_init : (Instr.icw1 .master 0x01#8).wf Config.default = false := by decide
theorem test_wf_icw1_strict : (Instr.icw1 .master 0x10#8).wf strict = false := by decide
theorem test_wf_icw1Bad : (Instr.icw1Bad .slave 0x11#8).wf Config.default = false := by decide
theorem test_wf_icw1Bad_no_init : (Instr.icw1Bad .slave 0x0F#8).wf Config.default = false := by decide
theorem test_wf_cmdUnrec :
    [0x10#8, 0x0A#8, 0x0B#8, 0x20#8].any (fun b => (Instr.cmdUnrec .master b).wf Config.default) = false := by
  decide
theorem test_wf_icw4Bad : (Instr.icw4Bad .master 0x01#8).wf Config.default = false := by decide
theorem test_wf_assertChip : (Instr.assertChip .master 8#8).wf Config.default = false := by decide
theorem test_wf_assertChipRange : (Instr.assertChipRange .master 7#8).wf Config.default = false := by decide
theorem test_wf_assertLo : (Instr.assertLo 8#8).wf Config.default = false := by decide
theorem test_wf_assertHi_low : (Instr.assertHi 7#8).wf Config.default = false := by decide
theorem test_wf_assertHi_high : (Instr.assertHi 16#8).wf Config.default = false := by decide
theorem test_wf_assertRange : (Instr.assertRange 15#8).wf Config.default = false := by decide
/-- R7, R10: `RD_IRR` with the `INIT` bit, and two ports at one address. -/
theorem test_wf_config :
    Config.wf { Config.default with cmd := { Config.default.cmd with rdIrr := 0x1A#8 } } = false ∧
    Config.wf { Config.default with ports := { Config.default.ports with slaveCmd := 0x21 } } = false := by
  decide

/-! ### Decode: words written out as chip, op, stage, byte (R70, R85) -/

theorem test_decode_icw1 : form (0b0#1 ++ 0b0000#4 ++ 0b000#3 ++ 0b00010001#8) = some (.icw1 .master 0x11#8) := by
  decide
theorem test_decode_icw1Bad :
    form (0b1#1 ++ 0b0000#4 ++ 0b000#3 ++ 0b11111111#8) = some (.icw1Bad .slave 0xFF#8) := by decide
theorem test_decode_ocw3Rirr : form (0b0#1 ++ 0b0000#4 ++ 0b000#3 ++ 0b00001010#8) = some (.ocw3Rirr .master) := by
  decide
theorem test_decode_ocw3Risr : form (0b1#1 ++ 0b0000#4 ++ 0b000#3 ++ 0b00001011#8) = some (.ocw3Risr .slave) := by
  decide
theorem test_decode_ocw2Eoi : form (0b1#1 ++ 0b0000#4 ++ 0b000#3 ++ 0b00100000#8) = some (.ocw2Eoi .slave) := by
  decide
theorem test_decode_cmdUnrec :
    form (0b0#1 ++ 0b0000#4 ++ 0b000#3 ++ 0b01100010#8) = some (.cmdUnrec .master 0x62#8) := by decide
theorem test_decode_rdcmd : form (0b0#1 ++ 0b0001#4 ++ 0b000#3 ++ 0b00000000#8) = some (.rdcmd .master) := by decide
theorem test_decode_icw2 :
    form (0b0#1 ++ 0b0010#4 ++ 0b001#3 ++ 0b11111000#8) = some (.icw2 .master 0xF8#8) := by decide
theorem test_decode_icw3 :
    form (0b1#1 ++ 0b0010#4 ++ 0b010#3 ++ 0b00000010#8) = some (.icw3 .slave 0x02#8) := by decide
theorem test_decode_icw4 : form (0b0#1 ++ 0b0010#4 ++ 0b011#3 ++ 0b00000001#8) = some (.icw4 .master) := by decide
theorem test_decode_icw4Bad :
    form (0b0#1 ++ 0b0010#4 ++ 0b011#3 ++ 0b00000011#8) = some (.icw4Bad .master 0x03#8) := by decide
theorem test_decode_ocw1 :
    form (0b0#1 ++ 0b0010#4 ++ 0b100#3 ++ 0b00111100#8) = some (.ocw1 .master 0x3C#8) ∧
    form (0b0#1 ++ 0b0010#4 ++ 0b000#3 ++ 0b01010101#8) = some (.ocw1 .master 0x55#8) := by decide
theorem test_decode_rddata : form (0b1#1 ++ 0b0011#4 ++ 0b000#3 ++ 0b00000000#8) = some (.rddata .slave) := by decide
theorem test_decode_assertChip :
    form (0b0#1 ++ 0b0100#4 ++ 0b000#3 ++ 0b00000111#8) = some (.assertChip .master 7#8) := by decide
theorem test_decode_assertChipRange :
    form (0b1#1 ++ 0b0100#4 ++ 0b000#3 ++ 0b00001000#8) = some (.assertChipRange .slave 8#8) := by decide
theorem test_decode_ackChip :
    form (0b0#1 ++ 0b0101#4 ++ 0b000#3 ++ 0b00001011#8) = some (.ackChip .master 0x0B#8) := by decide
theorem test_decode_assertLo : form (0b0#1 ++ 0b0110#4 ++ 0b000#3 ++ 0b00000101#8) = some (.assertLo 5#8) := by
  decide
theorem test_decode_assertHi : form (0b0#1 ++ 0b0110#4 ++ 0b000#3 ++ 0b00001111#8) = some (.assertHi 15#8) := by
  decide
theorem test_decode_assertRange :
    form (0b0#1 ++ 0b0110#4 ++ 0b000#3 ++ 0b00010000#8) = some (.assertRange 16#8) := by decide
theorem test_decode_ack : form (0b0#1 ++ 0b0111#4 ++ 0b000#3 ++ 0b01110010#8) = some (.ack 0x72#8) := by decide
theorem test_decode_isinit : form (0b0#1 ++ 0b1000#4 ++ 0b000#3 ++ 0b00000000#8) = some (.isinit .master) := by
  decide
/-- R83: op 9 and op 15, and stage code 5 of a data write. -/
theorem test_decode_reserved : form 0x4800#16 = none ∧ form 0x7800#16 = none ∧ form 0x1500#16 = none := by decide

/-! ### Command port (95_test_vectors.md, 2.1) -/

/-- CP2 -/
theorem test_icw1_cancels :
    after (host (withMaster (mk .ready 0x04#8 0x02#8 0xFF#8 0x08#8)) (out 0x20 0x11#8)) (fun t =>
      t.master == mk .awaitingOffset 0x04#8 0x02#8 0x00#8 0x08#8 && t.trace == [.cancelAll]) = true := by decide
/-- CP3 -/
theorem test_icw1_nothing_pending :
    after (host State.reset (out 0x20 0x10#8)) (fun t =>
      t.master.initStage == .awaitingOffset && t.trace == []) = true := by decide
/-- CP7: bit 4 set, looks like OCW3 -/
theorem test_icw1Bad :
    after (host State.reset (out 0x20 0x1A#8)) (fun t =>
      t.fault == some ⟨.icw1Unsupported, some .master, 0x1A⟩ && t.master == State.reset.master) = true := by decide
/-- CP4 -/
theorem test_icw1Bad_strict :
    after (host { State.reset with config := strict } (out 0x20 0x10#8)) (fun t =>
      t.fault == some ⟨.icw1Unsupported, some .master, 0x10⟩) = true := by decide
/-- CP10 -/
theorem test_ocw3Rirr :
    after (host (withMaster (mk .ready 0x05#8 0x02#8 0x00#8 0x08#8 0x00#8 0x99#8)) (out 0x20 0x0A#8)) (fun t =>
      t.master.latchedStatus == 0x05#8 && t.master.irr == 0x05#8) = true := by decide
/-- CP11 -/
theorem test_ocw3Risr :
    after (host (withMaster (mk .ready 0x05#8 0x80#8 0x00#8 0x08#8)) (out 0x20 0x0B#8)) (fun t =>
      t.master.latchedStatus == 0x80#8 && t.master.isr == 0x80#8) = true := by decide
/-- CP12 -/
theorem test_ocw2Eoi_lowest :
    after (host (withMaster (mk .ready 0x00#8 0x0A#8 0x00#8 0x08#8)) (out 0x20 0x20#8)) (fun t =>
      t.master.isr == 0x08#8) = true := by decide
/-- CP21: the EOI of the slave leaves the master's in-service bit. -/
theorem test_ocw2Eoi_other_chip :
    after (host (blk (mk .ready 0#8 1#8 0#8 8#8) (mk .ready 0#8 1#8 0#8 0x70#8)) (out 0xA0 0x20#8)) (fun t =>
      t.slave.isr == 0x00#8 && t.master.isr == 0x01#8) = true := by decide
/-- CP17: a specific EOI is unrecognized. -/
theorem test_cmdUnrec :
    after (host (withMaster (mk .ready 0x00#8 0x04#8 0x00#8 0x08#8)) (out 0x20 0x62#8)) (fun t =>
      t.master.isr == 0x04#8 && t.fault == none) = true := by decide
/-- CP19 -/
theorem test_rdcmd :
    after (host (withMaster (mk .ready 0x00#8 0x00#8 0xFF#8 0x08#8 0x00#8 0x37#8)) (.portRead 0x20 1)) (fun t =>
      t.returned == some (.byte 0x37#8) && t.master.latchedStatus == 0x37#8) = true := by decide

/-! ### Data port (2.2) -/

/-- DP1 -/
theorem test_icw2 :
    after (host (withMaster (mk .awaitingOffset 0x00#8 0x00#8 0x00#8 0x08#8)) (out 0x21 0xF8#8)) (fun t =>
      t.master.initStage == .awaitingCascadeWord && t.master.offset == 0xF8#8) = true := by decide
/-- DP2: the whole byte is stored. -/
theorem test_icw3 :
    after (host (withMaster (mk .awaitingCascadeWord 0x00#8 0x00#8 0x00#8 0x08#8)) (out 0x21 0x0A#8)) (fun t =>
      t.master.initStage == .awaitingMode && t.master.cascadeLine == 0x0A#8) = true := by decide
/-- DP4 -/
theorem test_icw4_injects :
    after (host (withMaster (mk .awaitingMode 0x81#8 0x00#8 0x00#8 0x20#8)) (out 0x21 0x01#8)) (fun t =>
      t.master.initStage == .ready && t.master.irr == 0x81#8 &&
      t.trace == [.inject 0x20#8, .inject 0x27#8]) = true := by decide
/-- DP7 -/
theorem test_icw4_overflow :
    after (host (withMaster (mk .awaitingMode 0x80#8 0x00#8 0x00#8 0xF9#8)) (out 0x21 0x01#8)) (fun t =>
      t.fault == some ⟨.vectorOverflow, some .master, 0x100⟩ && t.master.initStage == .awaitingMode) = true := by
  decide
/-- DP6 -/
theorem test_icw4Bad :
    after (host (withMaster (mk .awaitingMode 0x04#8 0x00#8 0x00#8 0x08#8)) (out 0x21 0x00#8)) (fun t =>
      t.fault == some ⟨.icw4Unsupported, some .master, 0x00⟩ && t.trace == []) = true := by decide
/-- DP10: the pending bit is kept. -/
theorem test_ocw1_ready :
    after (host (withMaster (mk .ready 0x08#8 0x00#8 0x00#8 0x08#8)) (out 0x21 0x08#8)) (fun t =>
      t.master.imr == 0x08#8 && t.master.irr == 0x08#8) = true := by decide
/-- DP11 -/
theorem test_ocw1_before_initialization :
    after (host State.reset (out 0x21 0x55#8)) (fun t =>
      t.master.imr == 0x55#8 && t.master.initStage == .notInitialized) = true := by decide
/-- DP13 -/
theorem test_rddata :
    after (host (withMaster (mk .ready 0x00#8 0x00#8 0xAB#8 0x08#8 0x00#8 0x11#8)) (.portRead 0x21 1)) (fun t =>
      t.returned == some (.byte 0xAB#8)) = true := by decide
/-- DP14 -/
theorem test_isinit :
    after (host ip1 (.isInitialized .master)) (fun t => t.returned == some (.flag true)) = true ∧
    after (host (withMaster (mk .awaitingMode 0#8 0#8 0#8 8#8)) (.isInitialized .master)) (fun t =>
      t.returned == some (.flag false)) = true := by decide

/-! ### Chip interrupt protocol (2.3) -/

/-- IP5: a duplicate -/
theorem test_assertChip_again :
    after (exec (.assertChip .master 3#8) (withMaster (mk .ready 0x08#8 0x00#8 0x00#8 0x08#8))) (fun t =>
      t.master.irr == 0x08#8 && t.trace == [.inject 0x0B#8]) = true := by decide
/-- IP6 -/
theorem test_assertChip_overflow :
    after (exec (.assertChip .master 7#8) (withMaster (mk .ready 0x00#8 0x00#8 0x00#8 0xF9#8))) (fun t =>
      t.fault == some ⟨.vectorOverflow, some .master, 0x100⟩ && t.master.irr == 0x00#8) = true := by decide
/-- IP4 -/
theorem test_assertChipRange :
    after (exec (.assertChipRange .master 8#8) State.reset) (fun t =>
      t.fault == some ⟨.irqLineRange, some .master, 8⟩) = true := by decide
/-- IP15 -/
theorem test_ackChip :
    after (exec (.ackChip .master 0x0B#8) (withMaster (mk .awaitingOffset 0x08#8 0x08#8 0x00#8 0x08#8))) (fun t =>
      t.master.irr == 0x00#8 && t.master.isr == 0x08#8) = true := by decide
/-- IP11 -/
theorem test_ackChip_above :
    after (exec (.ackChip .master 0x10#8) (withMaster (mk .ready 0xFF#8 0x00#8 0x00#8 0x08#8))) (fun t =>
      t.fault == some ⟨.ackNotPending, some .master, 0x10⟩) = true := by decide

/-! ### Cascade (2.4) -/

/-- CA1 -/
theorem test_assertLo :
    after (host base (.assertIrq 5#8)) (fun t =>
      t.master.irr == 0x20#8 && t.slave.irr == 0x00#8 && t.trace == [.inject 0x0D#8]) = true := by decide
/-- CA3 -/
theorem test_assertHi :
    after (host base (.assertIrq 15#8)) (fun t =>
      t.master.irr == 0x04#8 && t.slave.irr == 0x80#8 && t.trace == [.inject 0x0A#8, .inject 0x77#8]) = true := by
  decide
/-- CA7 -/
theorem test_assertHi_bad_line :
    after (host { base with master := { base.master with cascadeLine := 0x0A#8 } } (.assertIrq 10#8)) (fun t =>
      t.fault == some ⟨.irqLineRange, some .master, 0x0A⟩ && t.slave == base.slave) = true := by decide
/-- CA4 -/
theorem test_assertRange :
    after (host base (.assertIrq 16#8)) (fun t => t.fault == some ⟨.irqLineRange, none, 16⟩) = true := by decide
/-- CA9 -/
theorem test_ack_slave :
    after (host (blk (mk .ready 4#8 0#8 0#8 8#8 2#8) (mk .ready 4#8 0#8 0#8 0x70#8)) (.ack 0x72#8)) (fun t =>
      t.slave.irr == 0x00#8 && t.slave.isr == 0x04#8 && t.master.irr == 0x04#8) = true := by decide
/-- CA13 -/
theorem test_ack_offset_zero :
    after (host (blk (mk .ready 4#8 0#8 0#8 8#8 2#8) (mk .ready 0#8 0#8 0#8 0x00#8)) (.ack 0x0A#8)) (fun t =>
      t.fault == some ⟨.ackNotPending, some .slave, 0x0A⟩) = true := by decide

/-! ### The host's calls -/

/-- R53: a two-byte and an empty write; R50: a port of another device; R59; R83. -/
theorem test_refusals :
    refusal (host base (.portWrite 0x20 [0x11#8, 0x00#8])) = some (.portAccessWidth 0x20 2) ∧
    refusal (host base (.portRead 0xA1 2)) = some (.portAccessWidth 0xA1 2) ∧
    refusal (host base (.portRead 0x22 1)) = some (.portNotOfBlock 0x22) ∧
    refusal (host base .overlapping) = some .overlappingCall ∧
    refusal (host base (.transaction .master 9#4 0#8)) = some (.reservedOp 9#4) ∧
    refusal (step State.reset) = some .noHostCall := by decide
/-- A word placed at reset is the next operation: ICW4 (0x1301) makes the master `Ready`. -/
theorem test_withFetchWord :
    after (step (State.reset.withFetchWord 16 0x1301)) (fun t =>
      t.master.initStage == .ready && t.hostCalls == []) = true := by decide

/-! ### Witnesses: states and operands that meet the hypotheses of each obligation -/

/-- A slave `Ready` at 0x70 whose lines are unmasked, beside a master in the stage given. -/
def atStageState (st : Stage) : State := withMaster (mk st 0x00#8 0x00#8 0x00#8 0x08#8)

theorem witness_DecodeOfEncodeIsIdentity :
    Config.default.wf = true ∧ strict.wf = true ∧ (Instr.icw1 .slave 0x10#8).wf Config.default = true ∧
    (Instr.icw1Bad .master 0x10#8).wf strict = true ∧ (Instr.cmdUnrec .master 0xEF#8).wf Config.default = true ∧
    (Instr.assertChip .slave 7#8).wf Config.default = true ∧ (Instr.assertHi 15#8).wf Config.default = true ∧
    (Instr.assertRange 0xFF#8).wf Config.default = true := by decide

theorem witness_DecodedFormsAreWellFormed : decode Config.default 0x300F#16 = .ok (.assertHi 15#8) := by rfl

/-- Ops 9 and 15, stage codes 5 and 7, and the last word of each with a meaning: op 8, and a data write at stage 4. -/
theorem witness_ReservedWordsAreRefused :
    9 ≤ (opField 0x4800#16).toNat ∧ 9 ≤ (opField 0x7FFF#16).toNat ∧
    (opField 0x1500#16 = 2#4 ∧ 5 ≤ (stageField 0x1500#16).toNat) ∧
    (opField 0x17FF#16 = 2#4 ∧ 5 ≤ (stageField 0x17FF#16).toNat) ∧
    (opField 0x4000#16).toNat ≤ 8 ∧ (opField 0x4000#16 = 2#4 → (stageField 0x4000#16).toNat ≤ 4) ∧
    (opField 0x1400#16).toNat ≤ 8 ∧ (stageField 0x1400#16).toNat ≤ 4 := by decide

/-- A data write (op 2, the stage from the state) and an acknowledgment. -/
theorem witness_StepRunsDecodedOperation :
    (routeCall Config.default (out 0x21 0xF8#8) = .ok ⟨.master, 2#4, 0xF8#8⟩ ∧
      decode Config.default (packWord .master 2#4 ((atStageState .awaitingOffset).chip .master).initStage.code 0xF8#8) =
        .ok (.icw2 .master 0xF8#8)) ∧
    (routeCall Config.default (.ack 0x72#8) = .ok ⟨.master, 7#4, 0x72#8⟩ ∧
      decode Config.default (packWord .master 7#4 0#3 0x72#8) = .ok (.ack 0x72#8)) ∧
    (atStageState .awaitingOffset).fault = none ∧
    ((atStageState .awaitingOffset).withCalls [out 0x21 0xF8#8]).hostCalls = out 0x21 0xF8#8 :: [] :=
  ⟨⟨rfl, rfl⟩, ⟨rfl, rfl⟩, rfl, rfl⟩

theorem witness_CallsRouteToTheirOperation : Config.default.wf = true := by decide

/-- Widths 0 and 2, ops 9 and 15, and a step that is refused. -/
theorem witness_ContractViolationsAreRefused :
    base.fault = none ∧ 0x20 = commandPort base.config .master ∧ 0xA1 = dataPort base.config .slave ∧
    ([] : List Byte).length ≠ 1 ∧ [0x11#8, 0x00#8].length ≠ 1 ∧ (0 : Nat) ≠ 1 ∧ (2 : Nat) ≠ 1 ∧
    9 ≤ (9#4).toNat ∧ 9 ≤ (15#4).toNat ∧
    step (base.withCalls [.overlapping]) = .refused .overlappingCall ∧
    (base.withCalls [.portWrite 0x20 []]).hostCalls = .portWrite 0x20 [] :: [] ∧
    (base.withCalls [.portRead 0xA1 2]).hostCalls = .portRead 0xA1 2 :: [] ∧
    (base.withCalls [.transaction .slave 15#4 0#8]).hostCalls = .transaction .slave 15#4 0#8 :: [] := by
  refine ⟨rfl, rfl, rfl, by decide, by decide, by decide, by decide, by decide, by decide, rfl, rfl, rfl, rfl⟩

theorem witness_FaultedBlockHasNoStep : faulted.fault = some ⟨.icw4Unsupported, some .master, 0x05⟩ := by decide

theorem witness_EveryHostCallCompletes :
    base.fault = none ∧ hostMayCall base.config (out 0x20 0x11#8) ∧ hostMayCall base.config (.portRead 0xA1 1) ∧
    hostMayCall base.config (.assertIrq 16#8) ∧ hostMayCall base.config (.ack 0xFF#8) ∧
    hostMayCall base.config (.isInitialized .slave) :=
  ⟨rfl, ⟨⟨.master, Or.inl rfl⟩, rfl⟩, ⟨⟨.slave, Or.inr rfl⟩, rfl⟩, trivial, trivial, trivial⟩

theorem witness_HostCannotReachChipLevelForms :
    hostMayCall base.config (.assertIrq 7#8) ∧ decodeCall base (.assertIrq 7#8) = .ok (.assertLo 7#8) :=
  ⟨trivial, rfl⟩

theorem witness_StepKeepsParametersAndTakesOneCall :
    ∃ t, step (base.withCalls [.assertIrq 10#8, .ack 0x72#8]) = .next t := ⟨_, rfl⟩

theorem witness_NothingBecomesPendingAtConstruction :
    ∃ t, exec (.assertLo 3#8) (State.construct Config.default ⟨0x00#8, 0x08#8, 2#8, 9#8⟩ ResetRegs.zero) = .next t :=
  ⟨_, rfl⟩

/-- The two accepted bytes, with nothing pending and with a line pending. -/
theorem witness_Icw1RestartsInitialization :
    base.fault = none ∧ base.config.wf = true ∧ icw1Byte base.config 0x10#8 = true ∧ icw1Byte base.config 0x11#8 = true ∧
    (base.chip .master).irr = 0x00#8 ∧
    ((withMaster (mk .ready 0x04#8 0x00#8 0x00#8 0x08#8)).chip .master).irr ≠ 0x00#8 := by decide

/-- The first and last unsupported byte, and 0x10 where `IC4` is required. -/
theorem witness_UnsupportedIcw1Faults :
    base.fault = none ∧ base.config.wf = true ∧ strict.wf = true ∧ 0x12#8 &&& base.config.cmd.init ≠ 0#8 ∧ icw1Byte base.config 0x12#8 = false ∧
    0xFF#8 &&& base.config.cmd.init ≠ 0#8 ∧ icw1Byte base.config 0xFF#8 = false ∧
    0x10#8 &&& strict.cmd.init ≠ 0#8 ∧ icw1Byte strict 0x10#8 = false := by decide

theorem witness_StatusCommandsLatch : base.fault = none ∧ base.config.wf = true := by decide

/-- No bit in service; only bit 7; all bits. -/
theorem witness_EoiClearsLowestInService :
    base.fault = none ∧ base.config.wf = true ∧ (base.chip .master).isr = 0x00#8 ∧
    (bit 0x80#8 7 = true ∧ ∀ j < 7, bit 0x80#8 j = false) ∧ (bit 0xFF#8 0 = true ∧ ∀ j < 0, bit 0xFF#8 j = false) ∧
    ((withMaster (mk .ready 0#8 0x80#8 0#8 8#8)).chip .master).isr = 0x80#8 := by decide

theorem witness_UnrecognizedCommandIsIgnored :
    base.fault = none ∧ base.config.wf = true ∧ (Instr.cmdUnrec .master 0x00#8).wf base.config = true ∧
    (Instr.cmdUnrec .slave 0xEF#8).wf base.config = true := by decide

theorem witness_PortReadsHaveNoSideEffect :
    base.fault = none ∧ base.config.wf = true ∧ (∃ t, exec (.rdcmd .master) base = .next t) ∧
    ∃ t, exec (.rddata .master) base = .next t :=
  ⟨rfl, by decide, ⟨_, rfl⟩, ⟨_, rfl⟩⟩

theorem witness_QueryReturnsTheFlag :
    base.fault = none ∧ (base.chip .master).initStage = .ready ∧
    (State.reset.chip .master).initStage ≠ .ready := by decide

/-- The latch command of the other chip, and an acknowledgment. -/
theorem witness_LatchedStatusIsASnapshot :
    base.fault = none ∧ Instr.ocw3Rirr .slave ≠ .ocw3Rirr .master ∧ Instr.ocw3Rirr .slave ≠ .ocw3Risr .master ∧
    ∃ t, exec (.ocw3Rirr .slave) base = .next t := ⟨rfl, by decide, by decide, ⟨_, rfl⟩⟩

theorem witness_DataWriteFormFollowsStage :
    base.config.wf = true ∧ ((atStageState .awaitingMode).chip .master).initStage = .awaitingMode ∧
    0x01#8 = base.config.modeWord ∧ 0x00#8 ≠ base.config.modeWord := by decide

theorem witness_DataWriteOfAnotherStageIsRefused :
    base.fault = none ∧ (base.chip .master).initStage ≠ .awaitingOffset ∧
    (base.chip .master).initStage ≠ .awaitingCascadeWord ∧ (base.chip .master).initStage ≠ .awaitingMode ∧
    (atStageState .awaitingMode).fault = none ∧
    ((atStageState .awaitingMode).chip .master).initStage ≠ .notInitialized ∧
    ((atStageState .awaitingMode).chip .master).initStage ≠ .ready := by decide

theorem witness_Icw2ProgramsOffset :
    (atStageState .awaitingOffset).fault = none ∧ (atStageState .awaitingOffset).config.wf = true ∧
    ((atStageState .awaitingOffset).chip .master).initStage = .awaitingOffset := by decide

theorem witness_Icw3ProgramsCascadeLine :
    (atStageState .awaitingCascadeWord).fault = none ∧ (atStageState .awaitingCascadeWord).config.wf = true ∧
    ((atStageState .awaitingCascadeWord).chip .master).initStage = .awaitingCascadeWord := by decide

/-- Line 7 overflows at offset 0xF9 beside line 0, which does not; at 0xF8 line 7 still fits. -/
theorem witness_Icw4FinishesInitialization :
    let bad := withMaster (mk .awaitingMode 0x81#8 0x00#8 0x00#8 0xF9#8)
    let good := withMaster (mk .awaitingMode 0x81#8 0x00#8 0x00#8 0xF8#8)
    bad.fault = none ∧ (bad.chip .master).initStage = .awaitingMode ∧ bit (bad.chip .master).irr 7 = true ∧
    0xFF < (bad.chip .master).offset.toNat + 7 ∧
    (∀ j < 7, bit (bad.chip .master).irr j = true → (bad.chip .master).offset.toNat + j ≤ 0xFF) ∧
    good.fault = none ∧ (good.chip .master).initStage = .awaitingMode ∧
    ∀ n < 8, bit (good.chip .master).irr n = true → (good.chip .master).offset.toNat + n ≤ 0xFF := by decide

theorem witness_Ocw1WritesMask :
    base.fault = none ∧ base.config.wf = true ∧ (base.chip .master).initStage = .ready ∧
    State.reset.fault = none ∧ (State.reset.chip .slave).initStage = .notInitialized := by decide

theorem witness_MaskWriteBeforeInitialization :
    State.reset.fault = none ∧ State.reset.config.wf = true ∧
    (State.reset.chip .slave).initStage = .notInitialized ∧ (7#8).toNat < 8 := by decide

/-- Line 8 and 255; line 7 on a chip that is not `Ready`, masked, overflowing at 0xF9, and fitting at 0xF8. -/
theorem witness_ChipAssertionFollowsItsChecks :
    base.fault = none ∧ 8 ≤ (8#8).toNat ∧ 8 ≤ (0xFF#8).toNat ∧ (7#8).toNat < 8 ∧
    (State.reset.chip .master).initStage ≠ .ready ∧
    (let c := mk .ready 0#8 0#8 0x80#8 8#8; c.initStage = .ready ∧ bit c.imr 7 = true) ∧
    (let c := mk .ready 0#8 0#8 0x7F#8 0xF9#8;
      c.initStage = .ready ∧ bit c.imr 7 = false ∧ 0xFF < c.offset.toNat + 7) ∧
    (let c := mk .ready 0#8 0#8 0x7F#8 0xF8#8;
      c.initStage = .ready ∧ bit c.imr 7 = false ∧ c.offset.toNat + 7 ≤ 0xFF) ∧
    (withMaster (mk .ready 0#8 0#8 0x7F#8 0xF8#8)).fault = none := by decide

/-- Vectors just below and just above the chip's range, a clear bit inside it, and its first and last line pending. -/
theorem witness_ChipAcknowledgmentMovesPendingBit :
    let s := withMaster (mk .ready 0x81#8 0x00#8 0x00#8 0x08#8)
    s.fault = none ∧ (7#8).toNat < (s.chip .master).offset.toNat ∧
    (s.chip .master).offset.toNat + 7 < (0x10#8).toNat ∧
    bit (s.chip .master).irr ((0x0B#8).toNat - (s.chip .master).offset.toNat) = false ∧
    ((0x08#8).toNat = (s.chip .master).offset.toNat + 0 ∧ bit (s.chip .master).irr 0 = true) ∧
    ((0x0F#8).toNat = (s.chip .master).offset.toNat + 7 ∧ bit (s.chip .master).irr 7 = true) := by decide

theorem witness_AssertedLineIsAcknowledgedOnce :
    let s := withMaster (mk .ready 0x00#8 0x00#8 0x00#8 0xF8#8)
    s.fault = none ∧ (7#8).toNat < 8 ∧ (s.chip .master).initStage = .ready ∧
    bit (s.chip .master).imr (7#8).toNat = false ∧ (s.chip .master).offset.toNat + (7#8).toNat ≤ 0xFF := by decide

theorem witness_EveryAssertionRequestsOnce :
    let s := withMaster (mk .ready 0x01#8 0x00#8 0xFE#8 0xFF#8)
    s.fault = none ∧ (0#8).toNat < 8 ∧ (s.chip .master).initStage = .ready ∧
    bit (s.chip .master).imr (0#8).toNat = false ∧ (s.chip .master).offset.toNat + (0#8).toNat ≤ 0xFF := by decide

theorem witness_CascadeLineRangeFaults : base.fault = none ∧ 16 ≤ (16#8).toNat ∧ 16 ≤ (0xFF#8).toNat := by decide

theorem witness_LowLinesGoToTheMaster :
    base.fault = none ∧ (7#8).toNat < 8 ∧ base.master.initStage = .ready ∧
    bit base.master.imr (7#8).toNat = false ∧ base.master.offset.toNat + (7#8).toNat ≤ 0xFF := by decide

/-- Lines 8 and 15; a master step that faults (cascade line 0x0A) and one that does not. -/
theorem witness_HighLinesGoToBothChips :
    base.fault = none ∧ 8 ≤ (8#8).toNat ∧ (15#8).toNat ≤ 15 ∧
    after (exec (decodeAssertChip .master 0x0A#8) base) (fun m => m.fault != none) = true ∧
    after (exec (decodeAssertChip .master base.master.cascadeLine) base) (fun m => m.fault == none) = true := by
  decide

theorem witness_HighLineEffectOnBothChips :
    base.fault = none ∧ 8 ≤ (15#8).toNat ∧ (15#8).toNat ≤ 15 ∧ base.master.cascadeLine.toNat < 8 ∧
    base.master.initStage = .ready ∧ bit base.master.imr base.master.cascadeLine.toNat = false ∧
    base.master.offset.toNat + base.master.cascadeLine.toNat ≤ 0xFF ∧ base.slave.initStage = .ready ∧
    bit base.slave.imr ((15#8).toNat - 8) = false ∧ base.slave.offset.toNat + ((15#8).toNat - 8) ≤ 0xFF := by decide

theorem witness_BadCascadeLineFaults :
    let s := blk (mk .notInitialized 0#8 0#8 0#8 0#8 8#8) base.slave
    s.fault = none ∧ 8 ≤ (8#8).toNat ∧ (8#8).toNat ≤ 15 ∧ 8 ≤ s.master.cascadeLine.toNat := by decide

/-- The slave's offset itself, and the vector just below it. -/
theorem witness_AcknowledgmentIsRoutedBySlaveOffset :
    base.fault = none ∧ base.slave.offset.toNat ≤ (0x70#8).toNat ∧ (0x6F#8).toNat < base.slave.offset.toNat := by
  decide

theorem witness_RoutedAcknowledgmentMovesPendingBit :
    let s := blk (mk .ready 0x80#8 0#8 0#8 8#8) (mk .ready 0x01#8 0#8 0#8 0x70#8)
    s.fault = none ∧
    ((ChipId.slave = .slave ↔ s.slave.offset.toNat ≤ (0x70#8).toNat) ∧
      (0x70#8).toNat = (s.chip .slave).offset.toNat + 0 ∧ bit (s.chip .slave).irr 0 = true) ∧
    ((ChipId.master = .slave ↔ s.slave.offset.toNat ≤ (0x0F#8).toNat) ∧
      (0x0F#8).toNat = (s.chip .master).offset.toNat + 7 ∧ bit (s.chip .master).irr 7 = true) := by decide

/-- A bit that becomes set, and one that becomes clear. -/
theorem witness_RequestBitsMoveByAssertAndAckOnly :
    (∃ t, exec (.assertLo 7#8) base = .next t ∧ bit (base.chip .master).irr 7 = false ∧
      bit (t.chip .master).irr 7 = true) ∧
    ∃ t, exec (.ack 0x0F#8) (withMaster (mk .ready 0x80#8 0#8 0#8 8#8)) = .next t ∧ bit (0x80#8) 7 = true ∧
      bit (t.chip .master).irr 7 = false := ⟨⟨_, rfl, by decide, by decide⟩, ⟨_, rfl, by decide, by decide⟩⟩

theorem witness_ServiceBitsMoveByAckAndEoiOnly :
    (∃ t, exec (.ackChip .master 0x0F#8) (withMaster (mk .ready 0x80#8 0#8 0#8 8#8)) = .next t ∧
      bit (t.chip .master).isr 7 = true) ∧
    ∃ t, exec (.ocw2Eoi .master) (withMaster (mk .ready 0#8 0x80#8 0#8 8#8)) = .next t ∧
      bit (t.chip .master).isr 7 = false := ⟨⟨_, rfl, by decide⟩, ⟨_, rfl, by decide⟩⟩

/-- A chip with a line pending, on which ICW1 writes the stage, the mask and the trace. -/
def reinit : State := withMaster (mk .ready 0x04#8 0x00#8 0xFF#8 0x08#8)

theorem witness_StageTransitions :
    ∃ t, exec (.icw1 .master 0x11#8) reinit = .next t ∧
      (t.chip .master).initStage ≠ (reinit.chip .master).initStage := ⟨_, rfl, by decide⟩

theorem witness_RegisterWriters :
    ∃ t, exec (.icw1 .master 0x11#8) reinit = .next t ∧ (t.chip .master).imr ≠ (reinit.chip .master).imr :=
  ⟨_, rfl, by decide⟩

theorem witness_TraceGrowsAndCancelsOnlyOnIcw1 :
    ∃ t, exec (.icw1 .master 0x11#8) reinit = .next t ∧ t.trace = reinit.trace ++ [.cancelAll] :=
  ⟨_, rfl, by decide⟩

theorem witness_ChipOperationsKeepTheOtherChip :
    formChip (.assertChip .master 7#8) = some .master ∧ ∃ t, exec (.assertChip .master 7#8) base = .next t :=
  ⟨rfl, _, rfl⟩

/-- Two blocks with one master and two slaves. -/
theorem witness_ChipOperationsIgnoreTheOtherChip :
    formChip (.assertChip .master 7#8) = some .master ∧
    base.chip .master = (blk base.master State.reset.slave).chip .master ∧
    (∃ t, exec (.assertChip .master 7#8) base = .next t) ∧
    ∃ t, exec (.assertChip .master 7#8) (blk base.master State.reset.slave) = .next t :=
  ⟨rfl, rfl, ⟨_, rfl⟩, ⟨_, rfl⟩⟩

theorem witness_RequestedVectorsNamePendingLines :
    ∃ t, exec (.assertHi 15#8) base = .next t ∧ t.trace = base.trace ++ [.inject 0x0A#8, .inject 0x77#8] ∧
      Event.inject 0x77#8 ∈ [Event.inject 0x0A#8, .inject 0x77#8] := ⟨_, rfl, by decide, by decide⟩

/-- A block with a pending, requested line and an ICW1 to come. -/
def pending : State :=
  { withMaster (mk .ready 0x80#8 0x00#8 0x00#8 0xF8#8) with trace := [.inject 0xFF#8], hostCalls := [out 0x20 0x11#8] }

theorem witness_StepKeepsConsistency : pending.Consistent ∧ ∃ t, step pending = .next t :=
  ⟨by decide, _, rfl⟩

theorem witness_StepKeepsPendingRequested : pending.PendingRequested ∧ ∃ t, step pending = .next t :=
  ⟨by intro c; cases c <;> decide, _, rfl⟩

theorem witness_MaskIsClearDuringInitialization :
    (atStageState .awaitingCascadeWord).fault = none ∧
    ((atStageState .awaitingCascadeWord).chip .master).initStage ∈
      [Stage.awaitingOffset, .awaitingCascadeWord, .awaitingMode] ∧
    ((atStageState .awaitingCascadeWord).chip .master).imr = 0x00#8 ∧ (7#8).toNat < 8 ∧
    ∃ t, step ((atStageState .awaitingCascadeWord).withCalls [out 0x21 0x02#8]) = .next t :=
  ⟨by decide, by decide, by decide, by decide, _, rfl⟩

/-- E7, with line 7 pending and the highest offset at which it fits. -/
theorem witness_InitializationSequenceReachesReady :
    let s := (withMaster (mk .ready 0x84#8 0x00#8 0x00#8 0x08#8)).withCalls
      [out 0x20 0x11#8, out 0x21 0xF8#8, out 0x21 0x02#8, out 0x21 0x01#8, .assertIrq 2#8]
    s.fault = none ∧ s.config.wf = true ∧
    s.hostCalls = [.portWrite (commandPort s.config .master) [s.config.cmd.init ||| s.config.cmd.ic4],
      .portWrite (dataPort s.config .master) [0xF8#8], .portWrite (dataPort s.config .master) [0x02#8],
      .portWrite (dataPort s.config .master) [s.config.modeWord]] ++ [.assertIrq 2#8] ∧
    ∀ n < 8, bit (s.chip .master).irr n = true → (0xF8#8).toNat + n ≤ 0xFF := by decide

end Sys2Proof.Tests
end

/-! PROOFS, family 00_scope.md: what a step performs, which calls it completes, and what an operation may add to the
trace. -/

namespace Sys2Proof.Machine

/-! ### From a call to its step -/

/-- The converse of `decodeCall_ok`: a routed call whose transaction word decodes has that operation. -/
theorem decodeCall_of_route {s : State} {call : HostCall} {x : Txn} {i : Instr}
    (hx : routeCall s.config call = .ok x) (hd : decode s.config (x.word s) = .ok i) :
    decodeCall s call = .ok i := by
  simp [decodeCall, hx, hd]

/-- The converse of `step_next`: a running block performs the operation its next call decodes to. -/
theorem step_of_decodeCall {s : State} {call : HostCall} {rest : List HostCall} {i : Instr}
    (hf : s.fault = none) (hh : s.hostCalls = call :: rest) (hd : decodeCall s call = .ok i) :
    step s = exec i (s.withCalls rest) := by
  simp [step, fetch, hf, hh, hd]

/-- A step that answers a next state keeps the parameters and the calls after the one it takes. -/
theorem step_frame {s t : State} (h : step s = .next t) :
    t.config = s.config ∧ ∃ call, s.hostCalls = call :: t.hostCalls := by
  obtain ⟨-, call, rest, i, hh, -, he⟩ := step_next h
  have heff := exec_effect he
  have hrest : t.hostCalls = rest := heff.hostCalls
  exact ⟨heff.config, call, hrest ▸ hh⟩

/-! ### When an operation completes -/

/-- The chip and the stages a data-port write form is confined to (R120); the other forms run in every stage. -/
def neededStages : Instr → Option (ChipId × List Stage)
  | .icw2 c _ => some (c, [.awaitingOffset])
  | .icw3 c _ => some (c, [.awaitingCascadeWord])
  | .icw4 c => some (c, [.awaitingMode])
  | .icw4Bad c _ => some (c, [.awaitingMode])
  | .ocw1 c _ => some (c, [.notInitialized, .ready])
  | _ => none

/-- The block is in a stage that form `i` can run in. -/
def InStage (s : State) (i : Instr) : Prop :=
  ∀ p ∈ neededStages i, (s.chip p.1).initStage ∈ p.2

theorem inStage_of_none {i : Instr} (s : State) (h : neededStages i = none) : InStage s i := by
  simp [InStage, h]

theorem inStage_of_some {i : Instr} {s : State} {c : ChipId} {stages : List Stage}
    (h : neededStages i = some (c, stages)) (hs : (s.chip c).initStage ∈ stages) : InStage s i := by
  simpa [InStage, h] using hs

@[simp] theorem inStage_withCalls {s : State} {calls : List HostCall} {i : Instr} :
    InStage (s.withCalls calls) i ↔ InStage s i := by
  simp [InStage]

theorem running_atStage_completes {s : State} {c : ChipId} {stages : List Stage} (hf : s.fault = none)
    (hs : (s.chip c).initStage ∈ stages) (f : State → State) :
    ∃ t, running s (fun s => atStage c stages s fun s => .next (f s)) = .next t :=
  ⟨f s.begun, by simp [hf, hs]⟩

/-- A running block completes every operation it is in a stage for (R14, R120): a fault that is raised is a next state
too (R180). -/
theorem exec_completes {s : State} {i : Instr} (hf : s.fault = none) (hs : InStage s i) :
    ∃ t, exec i s = .next t := by
  cases i with
  | icw2 | icw3 | icw4 | icw4Bad | ocw1 => exact running_atStage_completes hf (hs _ rfl) _
  | icw1 | icw1Bad | ocw3Rirr | ocw3Risr | ocw2Eoi | cmdUnrec | rdcmd | rddata | assertChip | assertChipRange | ackChip
    | assertLo | assertHi | assertRange | ack | isinit =>
    simp [exec, execIcw1, execIcw1Bad, execOcw3Rirr, execOcw3Risr, execOcw2Eoi, execCmdUnrec, execRdcmd, execRddata,
      execAssertChip, execAssertChipRange, execAckChip, execAssertLo, execAssertHi, execAssertRange, execAck,
      execIsinit, hf]

/-! ### What a host's calls decode to -/

/-- R71's op codes that a host's interface spells: all but the internal ops 4 and 5 and the reserved ones. -/
def hostOps : List (BitVec 4) := [0#4, 1#4, 2#4, 3#4, 6#4, 7#4, 8#4]

theorem writeOp_mem_hostOps (kind : PortKind) : writeOp kind ∈ hostOps := by cases kind <;> decide

theorem readOp_mem_hostOps (kind : PortKind) : readOp kind ∈ hostOps := by cases kind <;> decide

theorem portAt_of_own_port {k : Config} {port : Nat} (h : ∃ c, port = commandPort k c ∨ port = dataPort k c) :
    ∃ c kind, portAt k.ports port = some (c, kind) := by
  obtain ⟨c, h⟩ := h
  unfold portAt
  split_ifs with hmc hmd hsc hsd
  · exact ⟨_, _, rfl⟩
  · exact ⟨_, _, rfl⟩
  · exact ⟨_, _, rfl⟩
  · exact ⟨_, _, rfl⟩
  · cases c <;> simp_all [commandPort, dataPort]

/-- A call that keeps the host's contract stands for a transaction with one of the host's op codes (R51, R71). -/
theorem routeCall_of_hostMayCall {k : Config} {call : HostCall} (h : hostMayCall k call) :
    ∃ x, routeCall k call = .ok x ∧ x.op ∈ hostOps := by
  cases call with
  | portWrite port bytes =>
    obtain ⟨hport, hlen⟩ := h
    obtain ⟨b, rfl⟩ := List.length_eq_one_iff.mp hlen
    obtain ⟨c, kind, hp⟩ := portAt_of_own_port hport
    exact ⟨⟨c, writeOp kind, b⟩, by simp [routeCall, hp], writeOp_mem_hostOps kind⟩
  | portRead port width =>
    obtain ⟨hport, rfl⟩ := h
    obtain ⟨c, kind, hp⟩ := portAt_of_own_port hport
    exact ⟨⟨c, readOp kind, 0#8⟩, by simp [routeCall, hp], readOp_mem_hostOps kind⟩
  | assertIrq line => exact ⟨⟨.master, 6#4, line⟩, rfl, by simp [hostOps]⟩
  | ack vector => exact ⟨⟨.master, 7#4, vector⟩, rfl, by simp [hostOps]⟩
  | isInitialized c => exact ⟨⟨c, 8#4, 0#8⟩, rfl, by simp [hostOps]⟩
  | transaction c op byte => exact h.elim
  | overlapping => exact h.elim

theorem decodeCommand_external (k : Config) (c : ChipId) (b : Byte) :
    neededStages (decodeCommand k c b) = none ∧ isInternal (decodeCommand k c b) = false := by
  unfold decodeCommand
  cases classifyCmd k b <;> exact ⟨rfl, rfl⟩

theorem decodeAssert_external (line : Byte) :
    neededStages (decodeAssert line) = none ∧ isInternal (decodeAssert line) = false := by
  unfold decodeAssert
  split_ifs <;> exact ⟨rfl, rfl⟩

/-- A data write decoded with the code of a stage is a form of that stage (R78, R120). -/
theorem decodeDataWrite_code (k : Config) (c : ChipId) (stage : Stage) (b : Byte) :
    ∃ i stages, decodeDataWrite k c stage.code b = .ok i ∧ neededStages i = some (c, stages) ∧ stage ∈ stages ∧
      isInternal i = false := by
  cases stage with
  | notInitialized => exact ⟨_, _, rfl, rfl, by decide, rfl⟩
  | awaitingOffset => exact ⟨_, _, rfl, rfl, by decide, rfl⟩
  | awaitingCascadeWord => exact ⟨_, _, rfl, rfl, by decide, rfl⟩
  | awaitingMode =>
    have hd : decodeDataWrite k c Stage.awaitingMode.code b =
      .ok (if b == k.modeWord then .icw4 c else .icw4Bad c b) := rfl
    rw [hd]
    split
    · exact ⟨_, _, rfl, rfl, by decide, rfl⟩
    · exact ⟨_, _, rfl, rfl, by decide, rfl⟩
  | ready => exact ⟨_, _, rfl, rfl, by decide, rfl⟩

/-- A transaction with one of the host's op codes decodes to a form that is not internal, and for which the block is in
the right stage: the decoder fills the stage from the state (R70). -/
theorem decode_word_of_hostOp (s : State) {x : Txn} (h : x.op ∈ hostOps) :
    ∃ i, decode s.config (x.word s) = .ok i ∧ InStage s i ∧ isInternal i = false := by
  obtain ⟨c, op, b⟩ := x
  simp only [hostOps, List.mem_cons, List.not_mem_nil, or_false] at h
  obtain rfl | rfl | rfl | rfl | rfl | rfl | rfl := h
  · obtain ⟨hs, hi⟩ := decodeCommand_external s.config c b
    exact ⟨_, decode_packWord_0 .., inStage_of_none s hs, hi⟩
  · exact ⟨_, decode_packWord_1 .., inStage_of_none s rfl, rfl⟩
  · obtain ⟨i, stages, hd, hn, hs, hi⟩ := decodeDataWrite_code s.config c (s.chip c).initStage b
    exact ⟨i, (decode_packWord_2 ..).trans hd, inStage_of_some hn hs, hi⟩
  · exact ⟨_, decode_packWord_3 .., inStage_of_none s rfl, rfl⟩
  · obtain ⟨hs, hi⟩ := decodeAssert_external b
    exact ⟨_, decode_packWord_6 .., inStage_of_none s hs, hi⟩
  · exact ⟨_, decode_packWord_7 .., inStage_of_none s rfl, rfl⟩
  · exact ⟨_, decode_packWord_8 .., inStage_of_none s rfl, rfl⟩

/-- Every call of a host that keeps its contract has an operation, which is not internal and which the block is in a
stage for. -/
theorem decodeCall_of_hostMayCall {s : State} {call : HostCall} (h : hostMayCall s.config call) :
    ∃ i, decodeCall s call = .ok i ∧ InStage s i ∧ isInternal i = false := by
  obtain ⟨x, hx, hop⟩ := routeCall_of_hostMayCall h
  obtain ⟨i, hd, hs, hi⟩ := decode_word_of_hostOp s hop
  exact ⟨i, decodeCall_of_route hx hd, hs, hi⟩

/-! ### Where `CancelAll` comes from -/

/-- A form of the other chip leaves chip `c` alone and emits nothing for it (R18, R32). -/
theorem ChipEffect.eq_of_formChip_other {i : Instr} {c : ChipId} {ch ch' : Chip} {es : List Event}
    (h : ChipEffect i c ch ch' es) (hc : formChip i = some c.other) : ch' = ch ∧ es = [] := by
  cases h with
  | unchanged => exact ⟨rfl, rfl⟩
  | asserted _ _ hne => exact absurd hc hne
  | acknowledged _ _ hne => exact absurd hc hne
  | icw1 _ hi | latchRequests hi | latchService hi | eoi hi | icw2 _ hi | icw3 _ hi | icw4 hi | ocw1 _ hi =>
    subst hi
    simp [formChip] at hc

/-- Only an ICW1 of a chip with a pending line emits `CancelAll` for it, and nothing else with it (R101, R194). -/
theorem ChipEffect.eq_icw1_of_cancelAll {i : Instr} {c : ChipId} {ch ch' : Chip} {es : List Event}
    (h : ChipEffect i c ch ch' es) (he : Event.cancelAll ∈ es) :
    ∃ b, i = .icw1 c b ∧ ch.irr ≠ 0x00#8 ∧ es = [.cancelAll] := by
  cases h with
  | icw1 b hi =>
    split_ifs at he ⊢ with hirr
    · simp at he
    · exact ⟨b, hi, hirr, rfl⟩
  | icw4 => simp [Chip.injectEvent] at he
  | asserted => simp at he
  | unchanged | latchRequests | latchService | eoi | icw2 | icw3 | ocw1 | acknowledged => simp at he

/-! ### The obligations -/

/-- Settles O7: the transaction's word is the packed word of the statement by definition (R70). -/
theorem stepRunsDecodedOperation : Obligations.StepRunsDecodedOperation :=
  fun _ _ _ _ _ hf hh hx hd => step_of_decodeCall hf hh (decodeCall_of_route hx hd)

/-- Settles O11: a host's call decodes to a form of the block's present stage, and such a form always completes. -/
theorem everyHostCallCompletes : Obligations.EveryHostCallCompletes := by
  intro s call rest hf hh hcall
  obtain ⟨i, hd, hs, -⟩ := decodeCall_of_hostMayCall hcall
  obtain ⟨t, ht⟩ := exec_completes (s := s.withCalls rest) hf (inStage_withCalls.mpr hs)
  exact ⟨t, (step_of_decodeCall hf hh hd).trans ht, (exec_effect ht).hostCalls⟩

/-- Settles O12: the op codes a host's calls are routed to are never those of the internal forms. -/
theorem hostCannotReachChipLevelForms : Obligations.HostCannotReachChipLevelForms := by
  intro s call i hcall hd
  obtain ⟨j, hj, -, hint⟩ := decodeCall_of_hostMayCall hcall
  obtain rfl : i = j := Except.ok.inj (hd.symm.trans hj)
  exact hint

/-- Settles O14, by the effect of the step's operation on the parameters and the calls to come. -/
theorem stepKeepsParametersAndTakesOneCall : Obligations.StepKeepsParametersAndTakesOneCall :=
  fun _ _ h => step_frame h

/-- Settles O50, by the operation's effect on each chip: the chip whose events hold `CancelAll` is that of an ICW1,
which emits nothing for the other chip. -/
theorem traceGrowsAndCancelsOnlyOnIcw1 : Obligations.TraceGrowsAndCancelsOnlyOnIcw1 := by
  intro i s t h
  obtain ⟨em, es, hm, hs, ht⟩ := (exec_effect h).chips
  refine ⟨em ++ es, by rw [ht, List.append_assoc], fun he => ?_⟩
  rcases List.mem_append.mp he with he | he
  · obtain ⟨b, rfl, hirr, rfl⟩ := hm.eq_icw1_of_cancelAll he
    obtain ⟨-, rfl⟩ := hs.eq_of_formChip_other rfl
    exact ⟨.master, b, rfl, hirr, rfl⟩
  · obtain ⟨b, rfl, hirr, rfl⟩ := hs.eq_icw1_of_cancelAll he
    obtain ⟨-, rfl⟩ := hm.eq_of_formChip_other rfl
    exact ⟨.slave, b, rfl, hirr, rfl⟩

end Sys2Proof.Machine

/-! PROOFS, family 10_state.md: construction, which operation writes which register of a chip, and the independence of
the two chips. -/

namespace Sys2Proof.Machine

/-! ### What an effect does to each register of its chip -/

/-- Only the two latch commands of a chip write its `latched_status` (R27). -/
theorem ChipEffect.latchedStatus_eq {i : Instr} {c : ChipId} {ch ch' : Chip} {es : List Event}
    (h : ChipEffect i c ch ch' es) (hirr : i ≠ .ocw3Rirr c) (hisr : i ≠ .ocw3Risr c) :
    ch'.latchedStatus = ch.latchedStatus := by
  cases h with
  | latchRequests hi => exact absurd hi hirr
  | latchService hi => exact absurd hi hisr
  | unchanged | icw1 | eoi | icw2 | icw3 | icw4 | ocw1 | asserted | acknowledged => rfl

/-- `irr` is kept, or gains the line of an assertion that passed its checks, or loses the line of an acknowledgment
(R30). -/
theorem ChipEffect.irr_cases {i : Instr} {c : ChipId} {ch ch' : Chip} {es : List Event}
    (h : ChipEffect i c ch ch' es) :
    ch'.irr = ch.irr ∨
    (∃ n < 8, isAssertion i = true ∧ ch.initStage = .ready ∧ bit ch.imr n = false ∧ ch'.irr = ch.irr ||| lineBit n) ∨
    (∃ n, isAcknowledgment i = true ∧ ch'.irr = ch.irr &&& ~~~(lineBit n)) := by
  cases h with
  | asserted line hi _ hlt hready hmask => exact .inr (.inl ⟨line.toNat, hlt, hi, hready, hmask, rfl⟩)
  | acknowledged n hi => exact .inr (.inr ⟨n, hi, rfl⟩)
  | unchanged | icw1 | latchRequests | latchService | eoi | icw2 | icw3 | icw4 | ocw1 => exact .inl rfl

/-- `isr` is kept, or gains the pending line of an acknowledgment, which leaves `irr`, or loses its lowest line to the
EOI command (R31). -/
theorem ChipEffect.isr_cases {i : Instr} {c : ChipId} {ch ch' : Chip} {es : List Event}
    (h : ChipEffect i c ch ch' es) :
    ch'.isr = ch.isr ∨
    (∃ n < 8, isAcknowledgment i = true ∧ bit ch.irr n = true ∧ bit ch'.irr n = false ∧
      ch'.isr = ch.isr ||| lineBit n) ∨
    (i = .ocw2Eoi c ∧ ch'.isr = clearLowest ch.isr) := by
  cases h with
  | acknowledged n hi _ hlt hpend =>
    exact .inr (.inl ⟨n, hlt, hi, hpend, by simp [bit_and_not_lineBit], rfl⟩)
  | eoi hi => exact .inr (.inr ⟨hi, rfl⟩)
  | unchanged | icw1 | latchRequests | latchService | icw2 | icw3 | icw4 | ocw1 | asserted => exact .inl rfl

/-- The EOI sets no bit: what it leaves set was set (R105). -/
theorem bit_of_bit_clearLowest {v : Byte} {n : Nat} (h : bit (clearLowest v) n = true) : bit v n = true := by
  rcases clearLowest_spec v with ⟨rfl, hz⟩ | ⟨_, _, _, _, hbits⟩
  · rwa [hz] at h
  · exact (Bool.and_eq_true_iff.mp (hbits n ▸ h)).1

/-! ### Two runs of one operation that agree on its chip -/

/-- From `s₁` and `s₂`, which need not agree on anything but chip `c`, two runs reached `t₁` and `t₂`, which agree on all
that an operation of chip `c` reads and writes, with the same events appended. -/
structure AgreeSince (c : ChipId) (s₁ s₂ t₁ t₂ : State) : Prop where
  chip : t₁.chip c = t₂.chip c
  returned : t₁.returned = t₂.returned
  fault : t₁.fault = t₂.fault
  trace : ∃ es, t₁.trace = s₁.trace ++ es ∧ t₂.trace = s₂.trace ++ es

namespace AgreeSince

variable {c : ChipId} {s₁ s₂ t₁ t₂ : State}

theorem begun (hc : s₁.chip c = s₂.chip c) (hf : s₁.fault = s₂.fault) : AgreeSince c s₁ s₂ s₁.begun s₂.begun :=
  ⟨by simpa using hc, rfl, hf, [], by simp, by simp⟩

theorem setChip (h : AgreeSince c s₁ s₂ t₁ t₂) {ch₁ ch₂ : Chip} (hch : ch₁ = ch₂) :
    AgreeSince c s₁ s₂ (t₁.setChip c ch₁) (t₂.setChip c ch₂) :=
  ⟨by simpa using hch, by simpa using h.returned, by simpa using h.fault, by simpa using h.trace⟩

theorem emitAll (h : AgreeSince c s₁ s₂ t₁ t₂) (es : List Event) :
    AgreeSince c s₁ s₂ (t₁.emitAll es) (t₂.emitAll es) := by
  obtain ⟨earlier, h₁, h₂⟩ := h.trace
  exact ⟨by simpa using h.chip, h.returned, h.fault, earlier ++ es, by simp [h₁], by simp [h₂]⟩

theorem emit (h : AgreeSince c s₁ s₂ t₁ t₂) (e : Event) : AgreeSince c s₁ s₂ (t₁.emit e) (t₂.emit e) :=
  h.emitAll [e]

theorem reply (h : AgreeSince c s₁ s₂ t₁ t₂) {v₁ v₂ : Reply} (hv : v₁ = v₂) :
    AgreeSince c s₁ s₂ (t₁.reply v₁) (t₂.reply v₂) :=
  ⟨by simpa using h.chip, by simpa using hv, h.fault, h.trace⟩

theorem raise (h : AgreeSince c s₁ s₂ t₁ t₂) (code : FaultCode) (d : Option ChipId) (v : Nat) :
    AgreeSince c s₁ s₂ (t₁.raise code d v) (t₂.raise code d v) :=
  ⟨by simpa using h.chip, h.returned, rfl, h.trace⟩

theorem chipAssert (h : AgreeSince c s₁ s₂ t₁ t₂) (line : Byte) :
    AgreeSince c s₁ s₂ (chipAssert c line t₁) (chipAssert c line t₂) := by
  simp only [Machine.chipAssert, h.chip]
  split_ifs
  · exact h.raise ..
  · exact h
  · exact h
  · exact h.raise ..
  · exact (h.setChip rfl).emit _

theorem chipAck (h : AgreeSince c s₁ s₂ t₁ t₂) (v : Byte) :
    AgreeSince c s₁ s₂ (chipAck c v t₁) (chipAck c v t₂) := by
  simp only [Machine.chipAck, h.chip]
  split
  · exact h.raise ..
  · exact h.setChip rfl

theorem finishInit (h : AgreeSince c s₁ s₂ t₁ t₂) : AgreeSince c s₁ s₂ (finishInit c t₁) (finishInit c t₂) := by
  simp only [Machine.finishInit, h.chip]
  cases (t₂.chip c).pendingLines.find? (t₂.chip c).overflows with
  | some n => exact h.raise ..
  | none => exact (h.setChip rfl).emitAll _

/-- Two runs of one meaning agree if the change it makes to a running block keeps agreement. -/
theorem of_running {f : State → State} (hc : s₁.chip c = s₂.chip c)
    (h₁ : running s₁ (fun s => .next (f s)) = .next t₁) (h₂ : running s₂ (fun s => .next (f s)) = .next t₂)
    (hkeep : ∀ {u₁ u₂}, AgreeSince c s₁ s₂ u₁ u₂ → AgreeSince c s₁ s₂ (f u₁) (f u₂)) :
    AgreeSince c s₁ s₂ t₁ t₂ := by
  obtain ⟨hf₁, h₁⟩ := running_next h₁
  obtain ⟨hf₂, h₂⟩ := running_next h₂
  cases h₁
  cases h₂
  exact hkeep (.begun hc (hf₁.trans hf₂.symm))

/-- The same for a data-port write form, which has a stage of its own. -/
theorem of_running_atStage {f : State → State} {stages : List Stage} (hc : s₁.chip c = s₂.chip c)
    (h₁ : running s₁ (fun s => atStage c stages s fun s => .next (f s)) = .next t₁)
    (h₂ : running s₂ (fun s => atStage c stages s fun s => .next (f s)) = .next t₂)
    (hkeep : ∀ {u₁ u₂}, AgreeSince c s₁ s₂ u₁ u₂ → AgreeSince c s₁ s₂ (f u₁) (f u₂)) :
    AgreeSince c s₁ s₂ t₁ t₂ := by
  obtain ⟨hf₁, h₁⟩ := running_next h₁
  obtain ⟨hf₂, h₂⟩ := running_next h₂
  exact of_running hc ((running_of_running hf₁ _).trans (atStage_next h₁).2)
    ((running_of_running hf₂ _).trans (atStage_next h₂).2) hkeep

end AgreeSince

/-- Two runs of a form of chip `c` from states that agree on that chip agree on all it reads and writes (R32). -/
theorem exec_agreeSince {i : Instr} {c : ChipId} {s₁ s₂ t₁ t₂ : State} (hi : formChip i = some c)
    (hc : s₁.chip c = s₂.chip c) (h₁ : exec i s₁ = .next t₁) (h₂ : exec i s₂ = .next t₂) :
    AgreeSince c s₁ s₂ t₁ t₂ := by
  unfold exec at h₁ h₂
  cases i with
  | assertLo | assertHi | assertRange | ack => cases hi
  | icw1 =>
    cases hi
    refine .of_running hc h₁ h₂ fun h => ?_
    simp only [h.chip]
    split_ifs
    · exact h.setChip rfl
    · exact (h.setChip rfl).emit _
  | cmdUnrec => cases hi; exact .of_running hc h₁ h₂ id
  | ocw3Rirr | ocw3Risr | ocw2Eoi =>
    cases hi
    exact .of_running hc h₁ h₂ fun h => h.setChip (by rw [h.chip])
  | rdcmd | rddata | isinit => cases hi; exact .of_running hc h₁ h₂ fun h => h.reply (by rw [h.chip])
  | icw1Bad => cases hi; exact .of_running hc h₁ h₂ fun h => h.raise ..
  | icw2 | icw3 | ocw1 => cases hi; exact .of_running_atStage hc h₁ h₂ fun h => h.setChip (by rw [h.chip])
  | icw4 => cases hi; exact .of_running_atStage hc h₁ h₂ .finishInit
  | icw4Bad => cases hi; exact .of_running_atStage hc h₁ h₂ fun h => h.raise ..
  | assertChip | assertChipRange => cases hi; exact .of_running hc h₁ h₂ fun h => h.chipAssert _
  | ackChip => cases hi; exact .of_running hc h₁ h₂ fun h => h.chipAck _

/-! ### Construction -/

/-- A chip at construction has nothing pending and is in no stage that asks more of it (R36). -/
theorem Chip.construct_consistent (r : ResetRegs) : (Chip.construct r).Consistent :=
  ⟨fun _ => ⟨rfl, rfl⟩, by simp [Chip.construct], by simp [Chip.construct]⟩

theorem State.construct_chip_initStage (k : Config) (m r : ResetRegs) (c : ChipId) :
    ((State.construct k m r).chip c).initStage = .notInitialized := by
  cases c <;> rfl

/-! ### The obligations -/

/-- Settles O25: the latch commands and the read by their meanings, every other form by its effect on the chip. -/
theorem latchedStatusIsASnapshot : Obligations.LatchedStatusIsASnapshot := by
  refine ⟨fun c s hf => ⟨?_, ?_, ?_⟩, fun i c s t hirr hisr h => ?_⟩
  · obtain ⟨t, ht⟩ := exec_completes (i := .ocw3Rirr c) hf (inStage_of_none s rfl)
    obtain ⟨-, rfl⟩ := execOcw3Rirr_next ht
    exact ⟨_, ht, by simp⟩
  · obtain ⟨t, ht⟩ := exec_completes (i := .ocw3Risr c) hf (inStage_of_none s rfl)
    obtain ⟨-, rfl⟩ := execOcw3Risr_next ht
    exact ⟨_, ht, by simp⟩
  · obtain ⟨t, ht⟩ := exec_completes (i := .rdcmd c) hf (inStage_of_none s rfl)
    obtain ⟨-, rfl⟩ := execRdcmd_next ht
    exact ⟨_, ht, by simp, by simp⟩
  · obtain ⟨es, he, -⟩ := exec_chip_effect h c
    exact he.latchedStatus_eq hirr hisr

/-- Settles O44, by the three things an operation can do to `irr`: each line it adds or removes is the bit that moved. -/
theorem requestBitsMoveByAssertAndAckOnly : Obligations.RequestBitsMoveByAssertAndAckOnly := by
  intro i s t c n h
  obtain ⟨es, he, -⟩ := exec_chip_effect h c
  obtain hirr | ⟨m, hm, hi, hready, hmask, hirr⟩ | ⟨m, hi, hirr⟩ := he.irr_cases <;> rw [hirr]
  · exact ⟨fun h0 h1 => by simp [h0] at h1, fun h1 h0 => by simp [h1] at h0⟩
  · rw [bit_or_lineBit _ hm]
    refine ⟨fun h0 h1 => ?_, fun h1 h0 => by simp [h1] at h0⟩
    obtain rfl : n = m := by simpa [h0] using h1
    exact ⟨hi, hready, hmask⟩
  · rw [bit_and_not_lineBit]
    exact ⟨fun h0 h1 => by simp [h0] at h1, fun _ _ => hi⟩

/-- Settles O45, by the three things an operation can do to `isr`. -/
theorem serviceBitsMoveByAckAndEoiOnly : Obligations.ServiceBitsMoveByAckAndEoiOnly := by
  intro i s t c n h
  obtain ⟨es, he, -⟩ := exec_chip_effect h c
  obtain hisr | ⟨m, hm, hi, hpend, hclear, hisr⟩ | ⟨hi, hisr⟩ := he.isr_cases <;> rw [hisr]
  · exact ⟨fun h0 h1 => by simp [h0] at h1, fun h1 h0 => by simp [h1] at h0⟩
  · rw [bit_or_lineBit _ hm]
    refine ⟨fun h0 h1 => ?_, fun h1 h0 => by simp [h1] at h0⟩
    obtain rfl : n = m := by simpa [h0] using h1
    exact ⟨hi, hpend, hclear⟩
  · exact ⟨fun h0 h1 => by simp [bit_of_bit_clearLowest h1] at h0, fun _ _ => hi⟩

/-- Settles O46, by the effects on the chip: four of them write its stage. -/
theorem stageTransitions : Obligations.StageTransitions := by
  intro i s t c h
  obtain ⟨es, he, -⟩ := exec_chip_effect h c
  generalize s.chip c = ch, t.chip c = ch' at he
  cases he with
  | icw1 b hi => exact .inr (.inl ⟨⟨b, hi⟩, rfl⟩)
  | icw2 b hi hs => exact .inr (.inr (.inl ⟨⟨b, hi⟩, hs, rfl⟩))
  | icw3 b hi hs => exact .inr (.inr (.inr (.inl ⟨⟨b, hi⟩, hs, rfl⟩)))
  | icw4 hi hs => exact .inr (.inr (.inr (.inr ⟨hi, hs, rfl⟩)))
  | unchanged | latchRequests | latchService | eoi | ocw1 | asserted | acknowledged => exact .inl rfl

/-- Settles O47, by the effects on the chip: ICW1 and OCW1 write its mask, ICW2 its offset, ICW3 its cascade line. -/
theorem registerWriters : Obligations.RegisterWriters := by
  intro i s t c h
  obtain ⟨es, he, -⟩ := exec_chip_effect h c
  generalize s.chip c = ch, t.chip c = ch' at he
  cases he with
  | icw1 b hi => exact ⟨.inr (.inl ⟨⟨b, hi⟩, rfl⟩), .inl rfl, .inl rfl⟩
  | ocw1 b hi => exact ⟨.inr (.inr hi), .inl rfl, .inl rfl⟩
  | icw2 b hi => exact ⟨.inl rfl, .inr hi, .inl rfl⟩
  | icw3 b hi => exact ⟨.inl rfl, .inl rfl, .inr hi⟩
  | unchanged | latchRequests | latchService | eoi | icw4 | asserted | acknowledged =>
    exact ⟨.inl rfl, .inl rfl, .inl rfl⟩

/-- Settles O48: a form of chip `c` is one of the other chip seen from there, and so has no effect on it. -/
theorem chipOperationsKeepTheOtherChip : Obligations.ChipOperationsKeepTheOtherChip := by
  intro i c s t hi h
  obtain ⟨es, he, -⟩ := exec_chip_effect h c.other
  exact (he.eq_of_formChip_other (by simpa using hi)).1

/-- Settles O49, by running the operation from both states side by side. -/
theorem chipOperationsIgnoreTheOtherChip : Obligations.ChipOperationsIgnoreTheOtherChip := by
  intro i c s₁ s₂ t₁ t₂ hi hc h₁ h₂
  obtain ⟨hchip, hret, hfault, htrace⟩ := exec_agreeSince hi hc h₁ h₂
  exact ⟨hchip, hret, hfault, htrace⟩

/-- Settles O15: every field is the one `construct` writes, for either chip. -/
theorem constructionValues : Obligations.ConstructionValues := by
  intro k m r c
  cases c with
  | master => exact ⟨rfl, rfl, rfl, rfl, rfl, rfl, rfl, rfl, rfl⟩
  | slave => exact ⟨rfl, rfl, rfl, rfl, rfl, rfl, rfl, rfl, rfl⟩

/-- Settles O16: the reset state is defined as that construction. -/
theorem resetIsConstructionAtZero : Obligations.ResetIsConstructionAtZero := ⟨rfl, rfl, rfl⟩

/-- Settles O52: both chips are consistent, there is no fault record, and no chip is `Ready`. -/
theorem constructionIsConsistent : Obligations.ConstructionIsConsistent := by
  intro k m r
  refine ⟨⟨Chip.construct_consistent m, Chip.construct_consistent r, by simp [State.construct]⟩, fun c hready => ?_⟩
  simp [State.construct_chip_initStage] at hready

end Sys2Proof.Machine

/-! PROOFS, family 20_memory.md: which transaction a port access stands for, and what the calls that break the host's
contract answer. -/

namespace Sys2Proof.Machine

/-! ### The port decode -/

/-- R10: each of the four addresses differs from those the port decode compares before it. -/
theorem ports_distinct_of_wf {k : Config} (hk : k.wf = true) :
    k.ports.masterData ≠ k.ports.masterCmd ∧
    (k.ports.slaveCmd ≠ k.ports.masterCmd ∧ k.ports.slaveCmd ≠ k.ports.masterData) ∧
    (k.ports.slaveData ≠ k.ports.masterCmd ∧ k.ports.slaveData ≠ k.ports.masterData ∧
      k.ports.slaveData ≠ k.ports.slaveCmd) := by
  simp only [Config.wf, PortMap.wf, Bool.and_eq_true, bne_iff_ne] at hk
  obtain ⟨-, ⟨⟨⟨⟨hmm, hmc⟩, hmd⟩, hdc⟩, hdd⟩, hss⟩ := hk
  exact ⟨hmm.symm, ⟨hmc.symm, hdc.symm⟩, hmd.symm, hdd.symm, hss.symm⟩

/-- With the four addresses distinct, a chip's command port is found (R51). -/
theorem portAt_commandPort {k : Config} (hk : k.wf = true) (c : ChipId) :
    portAt k.ports (commandPort k c) = some (c, .command) := by
  obtain ⟨-, ⟨hmc, hmd⟩, -⟩ := ports_distinct_of_wf hk
  cases c with
  | master => simp [portAt, commandPort]
  | slave => simp [portAt, commandPort, hmc, hmd]

/-- With the four addresses distinct, a chip's data port is found (R51). -/
theorem portAt_dataPort {k : Config} (hk : k.wf = true) (c : ChipId) :
    portAt k.ports (dataPort k c) = some (c, .data) := by
  obtain ⟨hm, -, hmc, hmd, hsc⟩ := ports_distinct_of_wf hk
  cases c with
  | master => simp [portAt, dataPort, hm]
  | slave => simp [portAt, dataPort, hmc, hmd, hsc]

theorem routeCall_portWrite {k : Config} {port : Nat} {c : ChipId} {kind : PortKind}
    (hp : portAt k.ports port = some (c, kind)) (b : Byte) :
    routeCall k (.portWrite port [b]) = .ok ⟨c, writeOp kind, b⟩ := by
  simp [routeCall, hp]

theorem routeCall_portRead {k : Config} {port : Nat} {c : ChipId} {kind : PortKind}
    (hp : portAt k.ports port = some (c, kind)) :
    routeCall k (.portRead port 1) = .ok ⟨c, readOp kind, 0#8⟩ := by
  simp [routeCall, hp]

/-- Whichever chip the port belongs to, a write that is not one byte wide stands for no transaction (R53). -/
theorem routeCall_portWrite_width {k : Config} {port : Nat} {bytes : List Byte}
    (hport : ∃ c, port = commandPort k c ∨ port = dataPort k c) (hw : bytes.length ≠ 1) :
    routeCall k (.portWrite port bytes) = .error (.portAccessWidth port bytes.length) := by
  obtain ⟨c, kind, hp⟩ := portAt_of_own_port hport
  match bytes, hw with
  | [], _ => simp [routeCall, hp]
  | _ :: _ :: _, _ => simp [routeCall, hp]

/-- Whichever chip the port belongs to, a read that is not one byte wide stands for no transaction (R53). -/
theorem routeCall_portRead_width {k : Config} {port width : Nat}
    (hport : ∃ c, port = commandPort k c ∨ port = dataPort k c) (hw : width ≠ 1) :
    routeCall k (.portRead port width) = .error (.portAccessWidth port width) := by
  obtain ⟨c, kind, hp⟩ := portAt_of_own_port hport
  simp [routeCall, hp, hw]

/-! ### Reserved ops -/

/-- Ops 9 to 15 name no operation (R83). -/
theorem decode_of_reservedOp {k : Config} {w : TxnWord} (h : 9 ≤ (opField w).toNat) :
    decode k w = .error (.reservedOp (opField w)) := by
  unfold decode
  split
  case h_10 => rfl
  all_goals omega

/-! ### Steps that are refused -/

/-- A call that stands for no transaction has no operation, for the same reason. -/
theorem decodeCall_of_route_error {s : State} {call : HostCall} {r : Refusal}
    (hx : routeCall s.config call = .error r) : decodeCall s call = .error r := by
  simp [decodeCall, hx]

/-- A transaction with a reserved op has no operation, in any stage. -/
theorem decodeCall_of_reservedOp (s : State) (c : ChipId) {op : BitVec 4} (b : Byte) (hop : 9 ≤ op.toNat) :
    decodeCall s (.transaction c op b) = .error (.reservedOp op) := by
  have hd (stage : BitVec 3) : decode s.config (packWord c op stage b) = .error (.reservedOp op) := by
    simpa using decode_of_reservedOp (k := s.config) (w := packWord c op stage b) (by simpa using hop)
  simp [decodeCall, routeCall, Txn.word, hd]

/-- A running block whose next call has no operation refuses it, for the decoder's reason. -/
theorem step_of_decodeCall_error {s : State} {call : HostCall} {rest : List HostCall} {r : Refusal}
    (hf : s.fault = none) (hh : s.hostCalls = call :: rest) (hd : decodeCall s call = .error r) :
    step s = .refused r := by
  simp [step, fetch, hf, hh, hd]

/-- A refused step ends the run: it is the outcome of every longer one. -/
theorem run_succ_of_refused {s : State} {r : Refusal} (n : Nat) (h : step s = .refused r) :
    Host.Core.run Sys2Proof.core (n + 1) s = .refused r := by
  have h' : Sys2Proof.core.step s = .refused r := h
  simp only [Host.Core.run, h']

/-! ### The obligations -/

/-- Settles O9: each of these calls has no operation, so its step is refused, and a refused step ends the run. -/
theorem contractViolationsAreRefused : Obligations.ContractViolationsAreRefused := by
  intro s rest hf
  refine ⟨?width_written, ?width_read, ?overlapping, ?reserved, fun r n => run_succ_of_refused n⟩
  case width_written =>
    intro c port bytes hport hw hh
    exact step_of_decodeCall_error hf hh (decodeCall_of_route_error (routeCall_portWrite_width ⟨c, hport⟩ hw))
  case width_read =>
    intro c port width hport hw hh
    exact step_of_decodeCall_error hf hh (decodeCall_of_route_error (routeCall_portRead_width ⟨c, hport⟩ hw))
  case overlapping =>
    intro hh
    exact step_of_decodeCall_error hf hh (decodeCall_of_route_error rfl)
  case reserved =>
    intro c op b hop hh
    exact step_of_decodeCall_error hf hh (decodeCall_of_reservedOp s c b hop)

/-- Settles O8: with distinct ports the port decode finds the chip and port accessed, and the op code follows from the
port and the direction. -/
theorem callsRouteToTheirOperation : Obligations.CallsRouteToTheirOperation := by
  intro k c b hk
  have hcmd := portAt_commandPort hk c
  have hdata := portAt_dataPort hk c
  exact ⟨routeCall_portWrite hcmd b, routeCall_portRead hcmd, routeCall_portWrite hdata b, routeCall_portRead hdata,
    rfl, rfl, rfl⟩

end Sys2Proof.Machine

/-! PROOFS, family 30_encoding.md: the decoder undoes the encoder and follows the opcode map, which words and which
steps are refused, and which lines the requested vectors name. -/

namespace Sys2Proof.Machine

/-! ### A word by its fields -/

/-- Every word is the pack of four fields (R70). -/
theorem exists_packWord (w : TxnWord) : ∃ c op stage b, w = packWord c op stage b :=
  ⟨_, _, _, _, (packWord_fields w).symm⟩

/-- The nine op codes of R71 one by one, and the reserved ones of R83 together. -/
theorem opCode_cases {P : BitVec 4 → Prop} (writeCommand : P 0#4) (readCommand : P 1#4) (writeData : P 2#4)
    (readData : P 3#4) (assertChip : P 4#4) (ackChip : P 5#4) (assertIrq : P 6#4) (ack : P 7#4) (isInitialized : P 8#4)
    (reserved : ∀ op : BitVec 4, 9 ≤ op.toNat → P op) (op : BitVec 4) : P op := by
  have hop : 9 ≤ op.toNat ∨ op ∈ [0#4, 1#4, 2#4, 3#4, 4#4, 5#4, 6#4, 7#4, 8#4] := by revert op; decide
  rcases hop with h | h
  · exact reserved op h
  · simp only [List.mem_cons, List.not_mem_nil, or_false] at h
    rcases h with rfl | rfl | rfl | rfl | rfl | rfl | rfl | rfl | rfl <;> assumption

@[simp] theorem decode_packWord_reserved (k : Config) (c : ChipId) {op : BitVec 4} (stage : BitVec 3) (b : Byte)
    (h : 9 ≤ op.toNat) : decode k (packWord c op stage b) = .error (.reservedOp op) := by
  simpa using decode_of_reservedOp (k := k) (w := packWord c op stage b) (by simpa using h)

/-! ### Command bytes (R76) -/

/-- R7: the three command bytes that are compared whole lack the `INIT` bit and are distinct. -/
theorem commandBytes_of_wf {k : Config} (hk : k.wf = true) :
    (k.cmd.rdIrr &&& k.cmd.init = 0#8 ∧ k.cmd.rdIsr &&& k.cmd.init = 0#8 ∧ k.cmd.eoi &&& k.cmd.init = 0#8) ∧
    k.cmd.rdIsr ≠ k.cmd.rdIrr ∧ k.cmd.eoi ≠ k.cmd.rdIrr ∧ k.cmd.eoi ≠ k.cmd.rdIsr := by
  simp only [Config.wf, CmdEnc.wf, Bool.and_eq_true, bne_iff_ne, beq_iff_eq] at hk
  obtain ⟨⟨⟨⟨⟨⟨⟨-, hrs⟩, hre⟩, hse⟩, hirr⟩, hisr⟩, heoi⟩, -⟩ := hk
  exact ⟨⟨hirr, hisr, heoi⟩, hrs.symm, hre.symm, hse.symm⟩

/-- With R7's constraints each constant is classified as its own command. -/
theorem classifyCmd_constants {k : Config} (hk : k.wf = true) :
    classifyCmd k k.cmd.rdIrr = .rdIrr ∧ classifyCmd k k.cmd.rdIsr = .rdIsr ∧ classifyCmd k k.cmd.eoi = .eoi := by
  obtain ⟨⟨hirr, hisr, heoi⟩, hsr, her, hes⟩ := commandBytes_of_wf hk
  rw [classifyCmd_of_not_init hirr, classifyCmd_of_not_init hisr, classifyCmd_of_not_init heoi]
  simp [hsr, her, hes]

/-- The unrecognized bytes lack the `INIT` bit and are none of the three constants (R77). -/
theorem classifyCmd_unrec {k : Config} {b : Byte} :
    classifyCmd k b = .unrec ↔
      b &&& k.cmd.init = 0#8 ∧ b ≠ k.cmd.rdIrr ∧ b ≠ k.cmd.rdIsr ∧ b ≠ k.cmd.eoi := by
  by_cases h : b &&& k.cmd.init = 0#8
  · rw [classifyCmd_of_not_init h]
    split_ifs <;> simp_all
  · simp only [classifyCmd, h, false_and, iff_false]
    split_ifs <;> simp_all

/-! ### What the operand decoders answer -/

theorem decodeCommand_wf (k : Config) (c : ChipId) (b : Byte) : (decodeCommand k c b).wf k = true := by
  unfold decodeCommand
  split
  next h => exact classifyCmd_icw1.mp h
  next h => simpa [Instr.wf] using classifyCmd_icw1Bad.mp h
  next => rfl
  next => rfl
  next => rfl
  next h => simpa [Instr.wf, and_assoc] using classifyCmd_unrec.mp h

theorem decodeAssertChip_wf (k : Config) (c : ChipId) (line : Byte) : (decodeAssertChip c line).wf k = true := by
  unfold decodeAssertChip
  split_ifs with h
  · simpa [Instr.wf] using h
  · simpa [Instr.wf] using h

theorem decodeAssert_wf (k : Config) (line : Byte) : (decodeAssert line).wf k = true := by
  unfold decodeAssert
  split_ifs with hlo hhi
  · simpa [Instr.wf] using hlo
  · simpa [Instr.wf] using And.intro (Nat.le_of_not_lt hlo) hhi
  · simp only [Instr.wf, decide_eq_true_eq]; omega

/-- Stage codes 5 to 7 are no stage of a data write (R83). -/
theorem decodeDataWrite_reserved (k : Config) (c : ChipId) {stage : BitVec 3} (b : Byte) (h : 5 ≤ stage.toNat) :
    decodeDataWrite k c stage b = .error (.reservedStage stage) := by
  unfold decodeDataWrite
  split
  case h_6 => rfl
  all_goals omega

/-- With a stage code of R26 a data write is the stage's form, and the mode word decides between the two of ICW4. -/
theorem decodeDataWrite_ok (k : Config) (c : ChipId) {stage : BitVec 3} (b : Byte) (h : stage.toNat ≤ 4) :
    ∃ i, decodeDataWrite k c stage b = .ok i ∧ i.wf k = true := by
  have hs : stage = 3#3 ∨ stage ∈ [0#3, 1#3, 2#3, 4#3] := by revert stage; decide
  rcases hs with rfl | hs
  · by_cases hm : b = k.modeWord
    · exact ⟨.icw4 c, by simp [decodeDataWrite, hm], rfl⟩
    · exact ⟨.icw4Bad c b, by simp [decodeDataWrite, hm], by simpa [Instr.wf] using hm⟩
  · simp only [List.mem_cons, List.not_mem_nil, or_false] at hs
    rcases hs with rfl | rfl | rfl | rfl <;> exact ⟨_, rfl, rfl⟩

/-- A word outside R83's reserved ones decodes to a form, which meets its operand condition. -/
theorem decode_packWord_ok (k : Config) (c : ChipId) {op : BitVec 4} {stage : BitVec 3} (b : Byte)
    (hop : op.toNat ≤ 8) (hs : op = 2#4 → stage.toNat ≤ 4) :
    ∃ i, decode k (packWord c op stage b) = .ok i ∧ i.wf k = true := by
  induction op using opCode_cases with
  | writeCommand => exact ⟨_, decode_packWord_0 .., decodeCommand_wf k c b⟩
  | writeData => simpa using decodeDataWrite_ok k c b (hs rfl)
  | assertChip => exact ⟨_, decode_packWord_4 .., decodeAssertChip_wf k c b⟩
  | assertIrq => exact ⟨_, decode_packWord_6 .., decodeAssert_wf k b⟩
  | readCommand => exact ⟨_, decode_packWord_1 .., rfl⟩
  | readData => exact ⟨_, decode_packWord_3 .., rfl⟩
  | ackChip => exact ⟨_, decode_packWord_5 .., rfl⟩
  | ack => exact ⟨_, decode_packWord_7 .., rfl⟩
  | isInitialized => exact ⟨_, decode_packWord_8 .., rfl⟩
  | reserved op h => omega

/-! ### The opcode map (R85) -/

/-- Words are equal where their fields are (R70). -/
theorem txnWord_ext_iff {w w' : TxnWord} :
    w = w' ↔ chipField w = chipField w' ∧ opField w = opField w' ∧ stageField w = stageField w' ∧
      byteField w = byteField w' := by
  refine ⟨by rintro rfl; simp, fun ⟨hc, ho, hs, hb⟩ => ?_⟩
  rw [← packWord_fields w, ← packWord_fields w', hc, ho, hs, hb]

/-- A row whose mask holds the whole op field and not the chip applies to the words of its op whose masked stage and byte
match. -/
theorem applies_packWord {r : OpcodeRow} (hm : r.mask.getLsbD 15 = false) (hp : chipField r.pattern = .master)
    (hop : opField r.mask = 15#4) (c : ChipId) (op : BitVec 4) (stage : BitVec 3) (b : Byte) :
    r.applies (packWord c op stage b) =
      (op == opField r.pattern && (stage &&& stageField r.mask == stageField r.pattern &&
        b &&& byteField r.mask == byteField r.pattern)) := by
  have hc (w : TxnWord) : chipField (w &&& r.mask) = .master := by
    rw [chipField, BitVec.getLsbD_and, hm]; simp
  have ho (w : TxnWord) : opField (w &&& r.mask) = opField w := by
    rw [opField, BitVec.extractLsb'_and]
    exact (congrArg (opField w &&& ·) hop).trans BitVec.and_allOnes
  have hs (w : TxnWord) : stageField (w &&& r.mask) = stageField w &&& stageField r.mask := BitVec.extractLsb'_and
  have hb (w : TxnWord) : byteField (w &&& r.mask) = byteField w &&& byteField r.mask := BitVec.extractLsb'_and
  rw [Bool.eq_iff_iff]
  simp [OpcodeRow.applies, txnWord_ext_iff, hc, ho, hs, hb, hp]

/-- Every row of R85's map is one of those. -/
theorem opcodeMap_masks : ∀ r ∈ opcodeMap,
    r.mask.getLsbD 15 = false ∧ chipField r.pattern = .master ∧ opField r.mask = 15#4 := by
  decide

/-- Rows that cannot apply may be left out of the search. -/
theorem firstApplicable_filter {w : TxnWord} {p : OpcodeRow → Bool} {rows : List OpcodeRow}
    (h : ∀ r ∈ rows, r.applies w = true → p r = true) :
    firstApplicable w (rows.filter p) = firstApplicable w rows := by
  induction rows with
  | nil => rfl
  | cons r rows ih =>
    have ih := ih fun r' hr' => h r' (.tail _ hr')
    cases hp : p r with
    | true => simp [hp, firstApplicable, ih]
    | false =>
      have hr : r.applies w = false := by simpa [hp] using h r (.head _)
      simp [hp, firstApplicable, ih, hr]

/-- The rows of R85's map for one op. -/
def rowsOfOp (op : BitVec 4) : List OpcodeRow := opcodeMap.filter (opField ·.pattern == op)

theorem mapMnemonic_packWord (c : ChipId) (op : BitVec 4) (stage : BitVec 3) (b : Byte) :
    mapMnemonic (packWord c op stage b) =
      (firstApplicable (packWord c op stage b) (rowsOfOp op)).map (·.mnemonic) := by
  rw [rowsOfOp, firstApplicable_filter, mapMnemonic]
  intro r hr h
  obtain ⟨hm, hp, hop⟩ := opcodeMap_masks r hr
  rw [applies_packWord hm hp hop, Bool.and_eq_true, beq_iff_eq] at h
  simpa using h.1.symm

/-- An op whose only row looks at nothing else has that row's mnemonic. -/
theorem mapMnemonic_of_whole_op {op : BitVec 4} {m : Mnemonic}
    (hrows : rowsOfOp op = [⟨m, packWord .master op 0#3 0#8, 0x7800#16, 1⟩]) (c : ChipId) (stage : BitVec 3)
    (b : Byte) : mapMnemonic (packWord c op stage b) = some m := by
  have hmask : (0x7800#16).getLsbD 15 = false ∧ opField 0x7800#16 = 15#4 ∧ stageField 0x7800#16 = 0#3 ∧
      byteField 0x7800#16 = 0#8 := by decide
  obtain ⟨hchip, hop, hstage, hbyte⟩ := hmask
  have happ := applies_packWord (r := ⟨m, packWord .master op 0#3 0#8, 0x7800#16, 1⟩) hchip (by simp) hop
  rw [mapMnemonic_packWord, hrows, firstApplicable, happ]
  simp [hstage, hbyte, firstApplicable]

/-- Each row of op 0 that looks at the byte applies to the bytes of its class (R76); `ICW1.BAD`, of lower priority, to
those of `ICW1` too. -/
theorem command_rows_byte : ∀ b : Byte,
    (b &&& 0xFE#8 == 0x10#8) = (classifyCmd Config.default b == .icw1) ∧
    (b &&& 0x10#8 == 0x10#8) =
      (classifyCmd Config.default b == .icw1 || classifyCmd Config.default b == .icw1Bad) ∧
    (b &&& 0xFF#8 == 0x0A#8) = (classifyCmd Config.default b == .rdIrr) ∧
    (b &&& 0xFF#8 == 0x0B#8) = (classifyCmd Config.default b == .rdIsr) ∧
    (b &&& 0xFF#8 == 0x20#8) = (classifyCmd Config.default b == .eoi) := by
  decide

/-- The rows of op 0 against the classification of R76. -/
theorem mapMnemonic_command (c : ChipId) (stage : BitVec 3) (b : Byte) :
    mapMnemonic (packWord c 0#4 stage b) = some (decodeCommand Config.default c b).mnemonic := by
  have hrows : rowsOfOp 0#4 = [⟨.ICW1, 0x0010#16, 0x78FE#16, 1⟩, ⟨.ICW1_BAD, 0x0010#16, 0x7810#16, 2⟩,
      ⟨.OCW3_RIRR, 0x000A#16, 0x78FF#16, 1⟩, ⟨.OCW3_RISR, 0x000B#16, 0x78FF#16, 1⟩,
      ⟨.OCW2_EOI, 0x0020#16, 0x78FF#16, 1⟩, ⟨.CMD_UNREC, 0x0000#16, 0x7800#16, 9⟩] := rfl
  obtain ⟨hicw1, hbad, hirr, hisr, heoi⟩ := command_rows_byte b
  rw [mapMnemonic_packWord, hrows]
  simp (disch := decide) only [firstApplicable, applies_packWord, opField, stageField, byteField,
    BitVec.reduceExtractLsb', BitVec.and_zero, beq_self_eq_true, Bool.true_and, hicw1, hbad, hirr, hisr, heoi,
    decodeCommand]
  cases classifyCmd Config.default b <;> rfl

/-- The rows of op 2 against the stages of R78: the byte decides only between the two rows of ICW4. -/
theorem mapMnemonic_dataWrite (c : ChipId) (stage : BitVec 3) (b : Byte) :
    mapMnemonic (packWord c 2#4 stage b) = (decodeDataWrite Config.default c stage b).toOption.map Instr.mnemonic := by
  have hrows : rowsOfOp 2#4 = [⟨.ICW2, 0x1100#16, 0x7F00#16, 1⟩, ⟨.ICW3, 0x1200#16, 0x7F00#16, 1⟩,
      ⟨.ICW4, 0x1301#16, 0x7FFF#16, 1⟩, ⟨.ICW4_BAD, 0x1300#16, 0x7F00#16, 2⟩,
      ⟨.OCW1, 0x1000#16, 0x7B00#16, 1⟩] := rfl
  have hbyte : b &&& 0xFF#8 = b := BitVec.and_allOnes
  rw [mapMnemonic_packWord, hrows]
  simp (disch := decide) only [firstApplicable, applies_packWord, opField, stageField, byteField,
    BitVec.reduceExtractLsb', BitVec.and_zero, beq_self_eq_true, Bool.true_and, Bool.and_true, hbyte]
  have hs : stage = 3#3 ∨ stage ∈ [0#3, 1#3, 2#3, 4#3, 5#3, 6#3, 7#3] := by revert stage; decide
  rcases hs with rfl | hs
  · have hd : decodeDataWrite Config.default c 3#3 b = .ok (if b == 0x01#8 then .icw4 c else .icw4Bad c b) := rfl
    rw [hd]
    cases b == 0x01#8 <;> rfl
  · simp only [List.mem_cons, List.not_mem_nil, or_false] at hs
    rcases hs with rfl | rfl | rfl | rfl | rfl | rfl | rfl <;> rfl

/-- A byte whose top five bits are clear is a line of one chip. -/
theorem line_lt_eight_of_mask : ∀ line : Byte, (line &&& 0xF8#8 == 0x00#8) = decide (line.toNat < 8) := by decide

theorem mapMnemonic_assertChip (c : ChipId) (stage : BitVec 3) (line : Byte) :
    mapMnemonic (packWord c 4#4 stage line) = some (decodeAssertChip c line).mnemonic := by
  have hrows : rowsOfOp 4#4 = [⟨.ASSERT_CHIP, 0x2000#16, 0x78F8#16, 1⟩,
      ⟨.ASSERT_CHIP_RANGE, 0x2000#16, 0x7800#16, 2⟩] := rfl
  rw [mapMnemonic_packWord, hrows]
  simp (disch := decide) only [firstApplicable, applies_packWord, opField, stageField, byteField,
    BitVec.reduceExtractLsb', BitVec.and_zero, beq_self_eq_true, Bool.true_and, line_lt_eight_of_mask,
    decodeAssertChip]
  by_cases h : line.toNat < 8 <;> simp [h, Instr.mnemonic]

theorem mapMnemonic_assertIrq (c : ChipId) (stage : BitVec 3) (line : Byte) :
    mapMnemonic (packWord c 6#4 stage line) = some (decodeAssert line).mnemonic := by
  have hrows : rowsOfOp 6#4 = [⟨.ASSERT_LO, 0x3000#16, 0x78F8#16, 1⟩, ⟨.ASSERT_HI, 0x3008#16, 0x78F8#16, 1⟩,
      ⟨.ASSERT_RANGE, 0x3000#16, 0x7800#16, 2⟩] := rfl
  have hhigh : ∀ b : Byte, (b &&& 0xF8#8 == 0x08#8) = decide (¬ b.toNat < 8 ∧ b.toNat ≤ 15) := by decide
  rw [mapMnemonic_packWord, hrows]
  simp (disch := decide) only [firstApplicable, applies_packWord, opField, stageField, byteField,
    BitVec.reduceExtractLsb', BitVec.and_zero, beq_self_eq_true, Bool.true_and, line_lt_eight_of_mask, hhigh,
    decodeAssert]
  by_cases h : line.toNat < 8
  · simp [h, Instr.mnemonic]
  · by_cases h' : line.toNat ≤ 15 <;> simp [h, h', Instr.mnemonic]

/-- The decoder's row of a packed word is the map's. -/
theorem decode_mnemonic (c : ChipId) (op : BitVec 4) (stage : BitVec 3) (b : Byte) :
    (decode Config.default (packWord c op stage b)).toOption.map Instr.mnemonic =
      mapMnemonic (packWord c op stage b) := by
  induction op using opCode_cases with
  | writeCommand => rw [decode_packWord_0, mapMnemonic_command]; rfl
  | writeData => rw [decode_packWord_2, mapMnemonic_dataWrite]
  | assertChip => rw [decode_packWord_4, mapMnemonic_assertChip]; rfl
  | assertIrq => rw [decode_packWord_6, mapMnemonic_assertIrq]; rfl
  | readCommand => rw [decode_packWord_1, mapMnemonic_of_whole_op rfl]; rfl
  | readData => rw [decode_packWord_3, mapMnemonic_of_whole_op rfl]; rfl
  | ackChip => rw [decode_packWord_5, mapMnemonic_of_whole_op rfl]; rfl
  | ack => rw [decode_packWord_7, mapMnemonic_of_whole_op rfl]; rfl
  | isInitialized => rw [decode_packWord_8, mapMnemonic_of_whole_op rfl]; rfl
  | reserved op h =>
    have hrows : rowsOfOp op = [] := by revert op; decide
    rw [decode_packWord_reserved _ _ _ _ h, mapMnemonic_packWord, hrows]
    rfl

/-! ### Counting bytes -/

/-- The sixteen bytes with high nibble `hi`. -/
def byteRow (hi : Nat) : List Byte := (List.range 16).map fun lo => BitVec.ofNat 8 (16 * hi + lo)

theorem range_mul_eq_flatMap (a b : Nat) :
    List.range (a * b) = (List.range b).flatMap fun i => (List.range a).map (a * i + ·) := by
  induction b with
  | zero => rfl
  | succ b ih => rw [Nat.mul_succ, List.range_add, ih, List.range_succ, List.flatMap_append, List.flatMap_singleton]

/-- The command bytes, sixteen rows of sixteen. -/
theorem bytes_eq_rows : (List.range 256).map (BitVec.ofNat 8) = (List.range 16).flatMap byteRow := by
  rw [show 256 = 16 * 16 from rfl, range_mul_eq_flatMap, List.map_flatMap]
  simp only [List.map_map]
  rfl

/-! ### Steps that are refused -/

/-- The decoder's answer on the word of a transaction: a form the block is in a stage for, or a reserved op. The stage
field is the code of a stage, so its reserved codes never occur (R70, R83). -/
theorem decode_word (s : State) (x : Txn) :
    (∃ i, decode s.config (x.word s) = .ok i ∧ InStage s i) ∨
    decode s.config (x.word s) = .error (.reservedOp x.op) := by
  obtain ⟨c, op, b⟩ := x
  have hop : op ∈ hostOps ∨ op = 4#4 ∨ op = 5#4 ∨ 9 ≤ op.toNat := by revert op; decide
  rcases hop with h | rfl | rfl | h
  · obtain ⟨i, hd, hs, -⟩ := decode_word_of_hostOp s (x := ⟨c, op, b⟩) h
    exact .inl ⟨i, hd, hs⟩
  · have hs : neededStages (decodeAssertChip c b) = none := by unfold decodeAssertChip; split_ifs <;> rfl
    exact .inl ⟨_, decode_packWord_4 .., inStage_of_none s hs⟩
  · exact .inl ⟨_, decode_packWord_5 .., inStage_of_none s rfl⟩
  · exact .inr (decode_packWord_reserved _ _ _ _ h)

/-- Why a host call stands for no transaction (R50, R53, R59). -/
theorem routeCall_error {k : Config} {call : HostCall} {r : Refusal} (h : routeCall k call = .error r) :
    (∃ port, r = .portNotOfBlock port) ∨ (∃ port width, r = .portAccessWidth port width) ∨ r = .overlappingCall := by
  cases call with
  | portWrite port bytes =>
    simp only [routeCall] at h
    split at h
    · cases h; exact .inl ⟨_, rfl⟩
    · cases h
    · cases h; exact .inr (.inl ⟨_, _, rfl⟩)
  | portRead port width =>
    simp only [routeCall] at h
    split at h
    · cases h; exact .inl ⟨_, rfl⟩
    · split_ifs at h
      cases h; exact .inr (.inl ⟨_, _, rfl⟩)
  | overlapping => cases h; exact .inr (.inr rfl)
  | assertIrq | ack | isInitialized | transaction => cases h

/-- A step is refused for one of five reasons, all of them the call's: an operation that is run always completes. -/
theorem step_refused {s : State} {r : Refusal} (h : step s = .refused r) :
    r = .noHostCall ∨ (∃ op, r = .reservedOp op) ∨
    (∃ port, r = .portNotOfBlock port) ∨ (∃ port width, r = .portAccessWidth port width) ∨ r = .overlappingCall := by
  cases hf : s.fault with
  | some held => simp [step, fetch, hf] at h
  | none =>
    cases hh : s.hostCalls with
    | nil =>
      have hr : Refusal.noHostCall = r := by simpa [step, fetch, hf, hh] using h
      exact .inl hr.symm
    | cons call rest =>
      cases hx : routeCall s.config call with
      | error r' =>
        rw [step_of_decodeCall_error hf hh (decodeCall_of_route_error hx)] at h
        cases h
        exact .inr (.inr (routeCall_error hx))
      | ok x =>
        rcases decode_word s x with ⟨i, hd, hs⟩ | hd
        · obtain ⟨t, ht⟩ := exec_completes (s := s.withCalls rest) hf (inStage_withCalls.mpr hs)
          rw [step_of_decodeCall hf hh (decodeCall_of_route hx hd), ht] at h
          cases h
        · have hc : decodeCall s call = .error (.reservedOp x.op) := by simp [decodeCall, hx, hd]
          rw [step_of_decodeCall_error hf hh hc] at h
          cases h
          exact .inr (.inl ⟨_, rfl⟩)

/-! ### Requested vectors -/

/-- A vector an operation requests for a chip is the exact sum for a line then pending on it, and the chip is then
`Ready` (R81, R123, R141). -/
theorem ChipEffect.inject_pending {i : Instr} {c : ChipId} {ch ch' : Chip} {es : List Event} {v : Byte}
    (h : ChipEffect i c ch ch' es) (hv : Event.inject v ∈ es) :
    ∃ n < 8, ch'.initStage = .ready ∧ bit ch'.irr n = true ∧ v.toNat = ch'.offset.toNat + n := by
  cases h with
  | icw4 hi hs hfit =>
    obtain ⟨n, hn, he⟩ := List.mem_map.mp hv
    have hpend := mem_pendingLines.mp hn
    have hlt := lt_of_bit hpend
    have hsum := hfit n hpend
    rw [injectEvent_eq] at he
    cases he
    refine ⟨n, hlt, rfl, hpend, ?_⟩
    simp only [BitVec.toNat_add, BitVec.toNat_ofNat]
    omega
  | asserted line hi _ hlt hready _ hsum =>
    obtain rfl : v = ch.offset + line := by simpa using hv
    refine ⟨line.toNat, hlt, hready, by simp [bit_or_lineBit _ hlt], ?_⟩
    simp only [BitVec.toNat_add]
    omega
  | icw1 => split_ifs at hv <;> simp at hv
  | unchanged | latchRequests | latchService | eoi | icw2 | icw3 | ocw1 | acknowledged => simp at hv

/-! ### The obligations -/

/-- Settles O1, form by form: the operand condition says which branch of the operand's decoder the form is. -/
theorem decodeOfEncodeIsIdentity : Obligations.DecodeOfEncodeIsIdentity := by
  intro k i hk hi
  obtain ⟨hirr, hisr, heoi⟩ := classifyCmd_constants hk
  cases i with
  | icw1 c b => simp [encode, decodeCommand, classifyCmd_icw1.mpr hi]
  | icw1Bad c b =>
    have hb : classifyCmd k b = .icw1Bad := classifyCmd_icw1Bad.mpr (by simpa [Instr.wf] using hi)
    simp [encode, decodeCommand, hb]
  | cmdUnrec c b =>
    have hb : classifyCmd k b = .unrec := classifyCmd_unrec.mpr (by simpa [Instr.wf, and_assoc] using hi)
    simp [encode, decodeCommand, hb]
  | ocw3Rirr c => simp [encode, decodeCommand, hirr]
  | ocw3Risr c => simp [encode, decodeCommand, hisr]
  | ocw2Eoi c => simp [encode, decodeCommand, heoi]
  | icw4Bad c b =>
    have hb : b ≠ k.modeWord := by simpa [Instr.wf] using hi
    simp [encode, decodeDataWrite, hb]
  | icw2 | icw3 | icw4 | ocw1 => simp [encode, decodeDataWrite]
  | assertChip c line =>
    have hl : line.toNat < 8 := by simpa [Instr.wf] using hi
    simp [encode, decodeAssertChip, hl]
  | assertChipRange c line =>
    have hl : 8 ≤ line.toNat := by simpa [Instr.wf] using hi
    simp [encode, decodeAssertChip, Nat.not_lt.mpr hl]
  | assertLo line =>
    have hl : line.toNat < 8 := by simpa [Instr.wf] using hi
    simp [encode, decodeAssert, hl]
  | assertHi line =>
    obtain ⟨hlow, hhigh⟩ : 8 ≤ line.toNat ∧ line.toNat ≤ 15 := by simpa [Instr.wf] using hi
    simp [encode, decodeAssert, Nat.not_lt.mpr hlow, hhigh]
  | assertRange line =>
    have hl : 16 ≤ line.toNat := by simpa [Instr.wf] using hi
    have hlow : ¬ line.toNat < 8 := by omega
    have hhigh : ¬ line.toNat ≤ 15 := by omega
    simp [encode, decodeAssert, hlow, hhigh]
  | rdcmd | rddata | ackChip | ack | isinit => simp [encode]

/-- Settles O2: a word that decodes is not a reserved one, and those decode to well-formed forms. -/
theorem decodedFormsAreWellFormed : Obligations.DecodedFormsAreWellFormed := by
  intro k w i hd
  obtain ⟨c, op, stage, b, rfl⟩ := exists_packWord w
  have hop : op.toNat ≤ 8 := by
    by_contra h
    simp [decode_packWord_reserved k c stage b (Nat.lt_of_not_le h)] at hd
  have hs : op = 2#4 → stage.toNat ≤ 4 := by
    rintro rfl
    by_contra h
    simp [decodeDataWrite_reserved k c b (Nat.lt_of_not_le h)] at hd
  obtain ⟨j, hj, hwf⟩ := decode_packWord_ok k c b hop hs
  obtain rfl : i = j := Except.ok.inj (hd.symm.trans hj)
  exact hwf

/-- Settles O3, op by op: the rows of an op against the decoder of its operands. -/
theorem decoderFollowsOpcodeMap : Obligations.DecoderFollowsOpcodeMap := by
  intro w
  obtain ⟨c, op, stage, b, rfl⟩ := exists_packWord w
  rw [← decode_mnemonic]
  cases decode Config.default (packWord c op stage b) <;> rfl

/-- Settles O4, by the fields of the word. -/
theorem reservedWordsAreRefused : Obligations.ReservedWordsAreRefused := by
  intro k w
  obtain ⟨c, op, stage, b, rfl⟩ := exists_packWord w
  simp only [opField_packWord, stageField_packWord]
  refine ⟨decode_packWord_reserved k c stage b, ?_, fun hop hs => ?_⟩
  · rintro rfl hs
    rw [decode_packWord_2, decodeDataWrite_reserved k c b hs]
  · obtain ⟨i, hi, -⟩ := decode_packWord_ok k c b hop hs
    exact ⟨i, hi⟩

/-- Settles O13: neither refusal is among the reasons a step is refused for. -/
theorem stepNeverMeetsAnotherStage : Obligations.StepNeverMeetsAnotherStage := by
  intro s c stage code
  exact ⟨fun h => by simpa using step_refused h, fun h => by simpa using step_refused h⟩

/-- Settles O51, by the effect on the chip whose events hold the request. -/
theorem requestedVectorsNamePendingLines : Obligations.RequestedVectorsNamePendingLines := by
  intro i s t es v h ht hv
  obtain ⟨em, es', hm, hs, htrace⟩ := (exec_effect h).chips
  obtain rfl : es = em ++ es' := by simpa [ht] using htrace
  rcases List.mem_append.mp hv with hv | hv
  · obtain ⟨n, hn, hpend⟩ := hm.inject_pending hv
    exact ⟨.master, n, hn, hpend⟩
  · obtain ⟨n, hn, hpend⟩ := hs.inject_pending hv
    exact ⟨.slave, n, hn, hpend⟩

/-- Settles O5: each word is written out, and so is its form. -/
theorem specWordsDecode : Obligations.SpecWordsDecode :=
  ⟨rfl, rfl, rfl, rfl, rfl, rfl, rfl, rfl⟩

/-- Settles O6, by classifying the 256 bytes row by row. -/
theorem commandByteCounts : Obligations.CommandByteCounts := by
  unfold Obligations.CommandByteCounts
  simp only [bytes_eq_rows, List.filter_flatMap, List.countP_flatMap]
  decide

end Sys2Proof.Machine

/-! PROOFS, family 40_command_port.md: which operation each command byte and each port read is, and what the
command-port operations and the two port reads do in a running state. -/

namespace Sys2Proof.Machine

/-! ### From a port access to its operation -/

/-- A byte written to a chip's command port is decoded by the byte alone (R100). -/
theorem decodeCall_commandWrite {s : State} (hk : s.config.wf = true) (c : ChipId) (b : Byte) :
    decodeCall s (.portWrite (commandPort s.config c) [b]) = .ok (decodeCommand s.config c b) :=
  decodeCall_of_route (routeCall_portWrite (portAt_commandPort hk c) b) (decode_packWord_0 ..)

theorem decodeCall_commandRead {s : State} (hk : s.config.wf = true) (c : ChipId) :
    decodeCall s (.portRead (commandPort s.config c) 1) = .ok (.rdcmd c) :=
  decodeCall_of_route (routeCall_portRead (portAt_commandPort hk c)) (decode_packWord_1 ..)

theorem decodeCall_dataRead {s : State} (hk : s.config.wf = true) (c : ChipId) :
    decodeCall s (.portRead (dataPort s.config c) 1) = .ok (.rddata c) :=
  decodeCall_of_route (routeCall_portRead (portAt_dataPort hk c)) (decode_packWord_3 ..)

/-! ### From an inversion lemma to the outcome -/

/-- A form that runs in every stage answers the one state its inversion lemma leaves possible. -/
theorem exec_eq_next {i : Instr} {s u : State} (hf : s.fault = none) (hi : neededStages i = none)
    (hinv : ∀ t, exec i s = .next t → s.fault = none ∧ t = u) : exec i s = .next u := by
  obtain ⟨t, ht⟩ := exec_completes hf (inStage_of_none s hi)
  obtain ⟨-, rfl⟩ := hinv t ht
  exact ht

/-- An operation that only writes its own chip: the frame of R18, with nothing emitted, raised or returned. -/
theorem begun_setChip_frame {s : State} (hf : s.fault = none) (c : ChipId) (ch : Chip) :
    SameOutside c s (s.begun.setChip c ch) ∧ (s.begun.setChip c ch).trace = s.trace ∧
    (s.begun.setChip c ch).fault = none ∧ (s.begun.setChip c ch).returned = none := by
  simp [SameOutside, hf]

/-! ### The port reads (R107, R126) -/

@[simp] theorem State.reply_reply (s : State) (v w : Reply) : (s.reply v).reply w = s.reply w := rfl

theorem exec_rdcmd {s : State} (hf : s.fault = none) (c : ChipId) :
    exec (.rdcmd c) s = .next (s.reply (.byte (s.chip c).latchedStatus)) :=
  exec_eq_next hf rfl fun _ => execRdcmd_next

theorem exec_rddata {s : State} (hf : s.fault = none) (c : ChipId) :
    exec (.rddata c) s = .next (s.reply (.byte (s.chip c).imr)) :=
  exec_eq_next hf rfl fun _ => execRddata_next

/-! ### The lowest set bit (R105) -/

/-- The EOI clears bit `n` and no other, where `n` is the lowest set bit. -/
theorem bit_clearLowest {v : Byte} {n : Nat} (hn : bit v n = true) (hlow : ∀ j < n, bit v j = false) (j : Nat) :
    bit (clearLowest v) j = (bit v j && decide (j ≠ n)) := by
  rcases clearLowest_spec v with ⟨rfl, -⟩ | ⟨i, -, hi, hilow, hbits⟩
  · simp [bit] at hn
  · have hni : ¬ n < i := fun h => by simp [hilow n h] at hn
    have hin : ¬ i < n := fun h => by simp [hlow i h] at hi
    obtain rfl : i = n := by omega
    exact hbits j

/-- `n & (n - 1)` keeps exactly the set bits with a set bit below them. By induction on the bit: where `n` is odd,
`n` and `n - 1` share all higher bits; where it is even, their halves are again a number and its predecessor. -/
theorem testBit_and_sub_one (n j : Nat) :
    (n &&& (n - 1)).testBit j = true ↔ n.testBit j = true ∧ ∃ k < j, n.testBit k = true := by
  induction j generalizing n with
  | zero =>
    rw [Nat.testBit_and, Bool.and_eq_true, Nat.testBit_zero, Nat.testBit_zero, decide_eq_true_iff, decide_eq_true_iff]
    omega
  | succ j ih =>
    rcases Nat.mod_two_eq_zero_or_one n with heven | hodd
    · have hhalf : (n - 1) / 2 = n / 2 - 1 := by omega
      have hbit0 : n.testBit 0 = false := by simp [heven]
      rw [Nat.testBit_and, Nat.testBit_succ, Nat.testBit_succ, hhalf, ← Nat.testBit_and, ih,
        Nat.exists_lt_succ_left]
      simp [hbit0, Nat.testBit_succ]
    · have hhalf : (n - 1) / 2 = n / 2 := by omega
      have hbit0 : n.testBit 0 = true := by simp [hodd]
      rw [Nat.testBit_and, Nat.testBit_succ, Nat.testBit_succ, hhalf, Bool.and_self, Nat.exists_lt_succ_left]
      simp [hbit0]

/-- A byte other than 0 and its predecessor, bit by bit. -/
theorem bit_and_sub_one {v : Byte} (hv : v ≠ 0x00#8) (j : Nat) :
    bit (v &&& (v - 1#8)) j = true ↔ bit v j = true ∧ ∃ k < j, bit v k = true := by
  have hpos : 1#8 ≤ v := by bv_omega
  have hand : (v &&& (v - 1#8)).toNat = v.toNat &&& (v.toNat - 1) := by
    rw [BitVec.toNat_and, BitVec.toNat_sub_of_le hpos]
    rfl
  have hkept := testBit_and_sub_one v.toNat j
  rw [← hand] at hkept
  exact hkept

/-- The two forms R105 gives the EOI agree: clearing the lowest set bit of `v` is `v & (v - 1)`. -/
theorem clearLowest_eq_and_sub_one (v : Byte) : clearLowest v = v &&& (v - 1#8) := by
  rcases clearLowest_spec v with ⟨rfl, h⟩ | ⟨i, -, hi, hlow, hbits⟩
  · exact h
  · have hv : v ≠ 0x00#8 := by
      rintro rfl
      simp [bit] at hi
    have hbelow {j : Nat} (hj : bit v j = true) : j ≠ i ↔ ∃ k < j, bit v k = true := by
      refine ⟨fun hne => ⟨i, ?_, hi⟩, ?_⟩
      · have hge : ¬ j < i := fun h => by simp [hlow j h] at hj
        omega
      · rintro ⟨k, hk, hbk⟩ rfl
        simp [hlow k hk] at hbk
    refine BitVec.eq_of_getLsbD_eq fun j _ => (hbits j).trans ?_
    rw [Bool.eq_iff_iff, Bool.and_eq_true, decide_eq_true_iff]
    exact (and_congr_right hbelow).trans (bit_and_sub_one hv j).symm

/-! ### The obligations -/

/-- Settles O18: the byte is classified as ICW1, and the meaning emits `CancelAll` in one of its two cases only. -/
theorem icw1RestartsInitialization : Obligations.Icw1RestartsInitialization := by
  refine fun c b s hf => ⟨fun hk hb => ?_, _, exec_eq_next hf rfl fun _ => execIcw1_next (b := b), ?_⟩
  · simp [decodeCall_commandWrite hk, decodeCommand, classifyCmd_icw1.mpr hb]
  · split <;> simp [SameOutside, Chip.isInitialized, hf]

/-- Settles O19: the byte is classified as ICW1.BAD, whose meaning raises before any write. -/
theorem unsupportedIcw1Faults : Obligations.UnsupportedIcw1Faults := by
  refine fun c b s hf => ⟨fun hk hinit hb => ?_, exec_eq_next hf rfl fun _ => execIcw1Bad_next⟩
  simp [decodeCall_commandWrite hk, decodeCommand, classifyCmd_icw1Bad.mpr ⟨hinit, hb⟩]

/-- Settles O20: each constant is classified as its own command, whose meaning writes the latch only. -/
theorem statusCommandsLatch : Obligations.StatusCommandsLatch := by
  refine fun c s hf => ⟨fun hk => ?decode, ⟨_, exec_eq_next hf rfl fun _ => execOcw3Rirr_next, ?rirr⟩,
    ⟨_, exec_eq_next hf rfl fun _ => execOcw3Risr_next, ?risr⟩⟩
  case decode =>
    obtain ⟨hirr, hisr, -⟩ := classifyCmd_constants hk
    simp [decodeCall_commandWrite hk, decodeCommand, hirr, hisr]
  case rirr =>
    obtain ⟨hsame, hquiet⟩ := begun_setChip_frame hf c { s.chip c with latchedStatus := (s.chip c).irr }
    exact ⟨hsame, State.setChip_chip_self .., hquiet⟩
  case risr =>
    obtain ⟨hsame, hquiet⟩ := begun_setChip_frame hf c { s.chip c with latchedStatus := (s.chip c).isr }
    exact ⟨hsame, State.setChip_chip_self .., hquiet⟩

/-- Settles O21: the meaning clears the lowest set bit, which is `isr & (isr - 1)` and moves no other bit. -/
theorem eoiClearsLowestInService : Obligations.EoiClearsLowestInService := by
  refine fun c s hf => ⟨fun hk => ?decode, _, exec_eq_next hf rfl fun _ => execOcw2Eoi_next, ?effect⟩
  case decode =>
    obtain ⟨-, -, heoi⟩ := classifyCmd_constants hk
    simp [decodeCall_commandWrite hk, decodeCommand, heoi]
  case effect =>
    obtain ⟨hsame, hquiet⟩ := begun_setChip_frame hf c { s.chip c with isr := clearLowest (s.chip c).isr }
    rw [State.setChip_chip_self]
    refine ⟨hsame, ?_, fun h0 => ?_, fun n hn hlow j => bit_clearLowest hn hlow j, hquiet⟩
    · rw [clearLowest_eq_and_sub_one]
    · simp [clearLowest_eq_and_sub_one, h0]

/-- Settles O23: a read only sets the reply, which a second read sets to the same byte. -/
theorem portReadsHaveNoSideEffect : Obligations.PortReadsHaveNoSideEffect := by
  refine fun c s hf => ⟨fun hk => ⟨decodeCall_commandRead hk c, decodeCall_dataRead hk c⟩, exec_rdcmd hf c,
    exec_rddata hf c, ?_⟩
  rintro i t (rfl | rfl) h
  · obtain rfl := Host.Outcome.next.inj ((exec_rdcmd hf c).symm.trans h)
    simpa using exec_rdcmd (s := s.reply (.byte (s.chip c).latchedStatus)) hf c
  · obtain rfl := Host.Outcome.next.inj ((exec_rddata hf c).symm.trans h)
    simpa using exec_rddata (s := s.reply (.byte (s.chip c).imr)) hf c

/-- Settles O22: the byte is classified as unrecognized, and its meaning is the state it starts from. -/
theorem unrecognizedCommandIsIgnored : Obligations.UnrecognizedCommandIsIgnored := by
  refine fun c b s hf => ⟨fun hk hb => ?_, exec_eq_next hf rfl fun _ => execCmdUnrec_next (c := c) (b := b)⟩
  have hclass : classifyCmd s.config b = .unrec := classifyCmd_unrec.mpr (by simpa [Instr.wf, and_assoc] using hb)
  simp [decodeCall_commandWrite hk, decodeCommand, hclass]

end Sys2Proof.Machine

/-! PROOFS, family 41_data_port.md: which operation a data-port write is and what it does in its stage, and the
invariants of the initialization sequence. -/

namespace Sys2Proof.Machine

/-! ### From a data-port write to its operation (R120) -/

/-- A byte written to a chip's data port is decoded with the code of the chip's stage. -/
theorem decodeCall_dataWrite {s : State} (hk : s.config.wf = true) {c : ChipId} {b : Byte} {i : Instr}
    (hd : decodeDataWrite s.config c (s.chip c).initStage.code b = .ok i) :
    decodeCall s (.portWrite (dataPort s.config c) [b]) = .ok i :=
  decodeCall_of_route (routeCall_portWrite (portAt_dataPort hk c) b) ((decode_packWord_2 ..).trans hd)

theorem decodeDataWrite_awaitingMode (k : Config) (c : ChipId) (b : Byte) :
    decodeDataWrite k c Stage.awaitingMode.code b = .ok (if b = k.modeWord then .icw4 c else .icw4Bad c b) := by
  simp [decodeDataWrite, Stage.code]

/-- A mask write, in either of its stages (R125). -/
theorem decodeDataWrite_ocw1 (k : Config) (c : ChipId) (b : Byte) {stage : Stage}
    (hs : stage = .notInitialized ∨ stage = .ready) : decodeDataWrite k c stage.code b = .ok (.ocw1 c b) := by
  rcases hs with rfl | rfl <;> rfl

/-! ### The data-port operations in and out of their stages -/

/-- In another stage than its own a data-port form is refused (R120). -/
theorem running_atStage_of_not_mem {s : State} {c : ChipId} {stages : List Stage} (hf : s.fault = none)
    (hs : (s.chip c).initStage ∉ stages) (k : State → Result) :
    running s (fun s => atStage c stages s k) = .refused (.stageMismatch c (s.chip c).initStage) := by
  simp [hf, atStage, hs]

theorem State.begun_eq_self {s : State} (h : s.returned = none) : s.begun = s := by
  rw [State.begun, ← h]

section InStage

variable {s : State} {c : ChipId} (hf : s.fault = none)

include hf

theorem exec_icw2 (hs : (s.chip c).initStage = .awaitingOffset) (b : Byte) :
    exec (.icw2 c b) s =
      .next (s.begun.setChip c { s.chip c with offset := b, initStage := .awaitingCascadeWord }) := by
  simp [exec, execIcw2, hf, hs]

theorem exec_icw3 (hs : (s.chip c).initStage = .awaitingCascadeWord) (b : Byte) :
    exec (.icw3 c b) s =
      .next (s.begun.setChip c { s.chip c with cascadeLine := b, initStage := .awaitingMode }) := by
  simp [exec, execIcw3, hf, hs]

theorem exec_icw4 (hs : (s.chip c).initStage = .awaitingMode) :
    exec (.icw4 c) s = .next (finishInit c s.begun) := by
  simp [exec, execIcw4, hf, hs]

theorem exec_icw4Bad (hs : (s.chip c).initStage = .awaitingMode) (b : Byte) :
    exec (.icw4Bad c b) s = .next (s.faultedWith .icw4Unsupported (some c) b.toNat) := by
  simp [exec, execIcw4Bad, State.faultedWith, hf, hs]

theorem exec_ocw1 (hs : (s.chip c).initStage = .notInitialized ∨ (s.chip c).initStage = .ready) (b : Byte) :
    exec (.ocw1 c b) s = .next (s.begun.setChip c { s.chip c with imr := b }) := by
  simp [exec, execOcw1, hf, hs]

/-- An assertion of a line of a chip that is not `Ready` is a no-op (R141). -/
theorem exec_assertChip_of_not_ready {line : Byte} (hs : (s.chip c).initStage ≠ .ready) (hl : line.toNat < 8) :
    exec (.assertChip c line) s = .next s.begun := by
  refine exec_eq_next hf rfl fun t ht => ?_
  obtain ⟨-, rfl⟩ := execAssertChip_next ht
  rcases chipAssert_cases c line s.begun with ⟨hge, -⟩ | ⟨-, -, e⟩ | ⟨-, hready, -⟩ | ⟨-, hready, -⟩
  · omega
  · exact ⟨hf, e⟩
  · exact absurd (by simpa using hready) hs
  · exact absurd (by simpa using hready) hs

end InStage

/-! ### Finishing initialization (R123) -/

/-- The lowest pending line whose vector overflows is the one that faults. -/
theorem finishInit_of_overflow {s : State} {c : ChipId} {n : Nat} (hn : bit (s.chip c).irr n = true)
    (hover : 0xFF < (s.chip c).offset.toNat + n)
    (hlow : ∀ j < n, bit (s.chip c).irr j = true → (s.chip c).offset.toNat + j ≤ 0xFF) :
    finishInit c s = s.raise .vectorOverflow (some c) ((s.chip c).offset.toNat + n) := by
  rcases finishInit_cases c s with ⟨i, -, hi, hiover, hilow, e⟩ | ⟨hfit, -⟩
  · have hni : ¬ n < i := fun h => absurd (hilow n h hn) (by omega)
    have hin : ¬ i < n := fun h => absurd (hlow i h hi) (by omega)
    obtain rfl : i = n := by omega
    exact e
  · exact absurd (hfit n hn) (by omega)

/-- With every pending vector in range the chip is `Ready` and its pending lines are requested. -/
theorem finishInit_of_fit {s : State} {c : ChipId}
    (hfit : ∀ n, bit (s.chip c).irr n = true → (s.chip c).offset.toNat + n ≤ 0xFF) :
    finishInit c s = (s.setChip c { s.chip c with initStage := .ready }).emitAll
      ((s.chip c).pendingLines.map (s.chip c).injectEvent) := by
  rcases finishInit_cases c s with ⟨i, -, hi, hover, -⟩ | ⟨-, e⟩
  · exact absurd (hfit i hi) (by omega)
  · exact e

/-- The requests of the pending lines, their vectors written as bytes (R81, R124). -/
theorem map_injectEvent_pendingLines (ch : Chip) :
    ch.pendingLines.map ch.injectEvent =
      ((List.range 8).filter (bit ch.irr)).map (fun n => Event.inject (ch.offset + BitVec.ofNat 8 n)) :=
  List.map_congr_left fun n _ => injectEvent_eq ch n

/-! ### What every effect keeps of a chip -/

/-- A mask that is 0 within the initialization sequence stays 0: `OCW1` is no operation of those stages (R129). -/
theorem ChipEffect.keeps_clear_mask {i : Instr} {c : ChipId} {ch ch' : Chip} {es : List Event}
    (h : ChipEffect i c ch ch' es) (hs : ch.initStage ∈ [Stage.awaitingOffset, .awaitingCascadeWord, .awaitingMode])
    (hm : ch.imr = 0x00#8) : ch'.imr = 0x00#8 := by
  cases h with
  | icw1 => rfl
  | ocw1 b hi hstage => rcases hstage with h | h <;> simp [h] at hs
  | unchanged | latchRequests | latchService | eoi | icw2 | icw3 | icw4 | asserted | acknowledged => exact hm

theorem clearLowest_zero : clearLowest 0x00#8 = 0x00#8 := rfl

/-- Every effect keeps the invariant of its chip (R129, R30, R31, R123). -/
theorem ChipEffect.keeps_consistent {i : Instr} {c : ChipId} {ch ch' : Chip} {es : List Event}
    (h : ChipEffect i c ch ch' es) (hch : ch.Consistent) : ch'.Consistent := by
  have hclear := h.keeps_clear_mask
  obtain ⟨hnew, hseq, hfit⟩ := hch
  cases h with
  | unchanged | latchRequests | latchService => exact ⟨hnew, hseq, hfit⟩
  | icw1 => exact ⟨nofun, fun _ => rfl, nofun⟩
  | icw2 b hi hs | icw3 b hi hs => exact ⟨nofun, fun _ => hseq (by simp [hs]), nofun⟩
  | icw4 hi hs hall => exact ⟨nofun, by simp, fun _ n _ hn => hall n hn⟩
  | ocw1 b hi hs => exact ⟨hnew, fun hmem => hclear hmem (hseq hmem), hfit⟩
  | eoi =>
    refine ⟨fun hs => ?_, hseq, hfit⟩
    obtain ⟨hirr, hisr⟩ := hnew hs
    exact ⟨hirr, by rw [hisr, clearLowest_zero]⟩
  | asserted line hi hc hlt hready hmask hsum =>
    refine ⟨by simp [hready], hseq, fun _ n hn hb => ?_⟩
    rw [bit_or_lineBit _ hlt, Bool.or_eq_true, decide_eq_true_iff] at hb
    rcases hb with hold | rfl
    · exact hfit hready n hn hold
    · exact hsum
  | acknowledged m hi hc hlt hpend =>
    refine ⟨fun hs => ?_, hseq, fun hs n hn hb => ?_⟩
    · rw [(hnew hs).1] at hpend
      simp [bit] at hpend
    · rw [bit_and_not_lineBit, Bool.and_eq_true] at hb
      exact hfit hs n hn hb.1

/-- `State.PendingRequested` for one chip: if it is `Ready`, its pending lines are requested in a trace. -/
def Chip.RequestedIn (ch : Chip) (tr : List Event) : Prop :=
  ch.initStage = .ready → ∀ n ∈ chipLines, bit ch.irr n = true → Event.inject (ch.offset + BitVec.ofNat 8 n) ∈ tr

theorem State.pendingRequested_iff {s : State} : s.PendingRequested ↔ ∀ c, (s.chip c).RequestedIn s.trace := Iff.rfl

/-- Every effect keeps the pending lines requested, in a trace that holds the effect's own events and all that were in
the trace before (R123, R141). -/
theorem ChipEffect.keeps_requested {i : Instr} {c : ChipId} {ch ch' : Chip} {es tr tr' : List Event}
    (h : ChipEffect i c ch ch' es) (hold : tr ⊆ tr') (hnew : es ⊆ tr') (hreq : ch.RequestedIn tr) :
    ch'.RequestedIn tr' := by
  intro hready n hn hb
  cases h with
  | unchanged | latchRequests | latchService | eoi | ocw1 => exact hold (hreq hready n hn hb)
  | icw1 | icw2 | icw3 => cases hready
  | icw4 =>
    rw [← injectEvent_eq]
    exact hnew (List.mem_map_of_mem (mem_pendingLines.mpr hb))
  | asserted line hi hc hlt =>
    rw [bit_or_lineBit _ hlt, Bool.or_eq_true, decide_eq_true_iff] at hb
    rcases hb with hpend | rfl
    · exact hold (hreq hready n hn hpend)
    · exact hnew (by simp)
  | acknowledged =>
    rw [bit_and_not_lineBit, Bool.and_eq_true] at hb
    exact hold (hreq hready n hn hb.1)

/-! ### What every step keeps -/

/-- A step that answers a next state performs a form that meets its operand condition. -/
theorem step_exec {s t : State} (h : step s = .next t) :
    ∃ i calls, i.wf s.config = true ∧ exec i (s.withCalls calls) = .next t := by
  obtain ⟨-, call, rest, i, -, hd, he⟩ := step_next h
  obtain ⟨x, -, hx⟩ := decodeCall_ok hd
  exact ⟨i, rest, decodedFormsAreWellFormed _ _ _ hx, he⟩

/-- The effect of a step on one chip, whose events the trace then holds beside the earlier ones. -/
theorem step_chip_effect {s t : State} (h : step s = .next t) (c : ChipId) :
    ∃ i es, ChipEffect i c (s.chip c) (t.chip c) es ∧ s.trace ⊆ t.trace ∧ es ⊆ t.trace := by
  obtain ⟨i, calls, -, he⟩ := step_exec h
  obtain ⟨es, heff, hes⟩ := exec_chip_effect he c
  obtain ⟨added, hadd, -⟩ := traceGrowsAndCancelsOnlyOnIcw1 i _ t he
  exact ⟨i, es, by simpa using heff, by simp [hadd], hes⟩

/-! ### The obligations -/

/-- Settles O53: each chip by the effect of the step on it, the fault record by the effect of a well-formed
operation. -/
theorem stepKeepsConsistency : Obligations.StepKeepsConsistency := by
  rintro s t ⟨hm, hs, -⟩ h
  obtain ⟨_, _, heffm, -⟩ := step_chip_effect h .master
  obtain ⟨_, _, heffs, -⟩ := step_chip_effect h .slave
  obtain ⟨i, calls, hwf, he⟩ := step_exec h
  refine ⟨heffm.keeps_consistent hm, heffs.keeps_consistent hs, ?_⟩
  rw [(step_frame h).1]
  exact (exec_effect he).record hwf

/-- Settles O54, chip by chip: the trace keeps what it holds and gains the events of the step's effect. -/
theorem stepKeepsPendingRequested : Obligations.StepKeepsPendingRequested := by
  intro s t hreq h
  refine State.pendingRequested_iff.mpr fun c => ?_
  obtain ⟨i, es, heff, hold, hnew⟩ := step_chip_effect h c
  exact heff.keeps_requested hold hnew (State.pendingRequested_iff.mp hreq c)

/-- Settles O26, stage by stage: the decoder reads the stage back from its code. -/
theorem dataWriteFormFollowsStage : Obligations.DataWriteFormFollowsStage := by
  intro c b s hk
  apply decodeCall_dataWrite hk
  cases (s.chip c).initStage with
  | awaitingMode => exact decodeDataWrite_awaitingMode s.config c b
  | notInitialized | awaitingOffset | awaitingCascadeWord | ready => rfl

/-- Settles O30: the meaning of ICW4.BAD, and the two cases of finishing initialization. -/
theorem icw4FinishesInitialization : Obligations.Icw4FinishesInitialization := by
  refine fun c s hf hs => ⟨exec_icw4Bad hf hs, fun n _ hn hover hlow => ?overflow, fun hfit => ?fit⟩ <;>
    rw [exec_icw4 hf hs]
  case overflow =>
    rw [finishInit_of_overflow (s := s.begun) (by simpa using hn) (by simpa using hover) (by simpa using hlow),
      State.begun_chip, State.faultedWith]
  case fit =>
    have hfit (n : Nat) (hn : bit (s.chip c).irr n = true) := hfit n (lt_of_bit hn) hn
    rw [finishInit_of_fit (s := s.begun) (by simpa using hfit), State.begun_chip, map_injectEvent_pendingLines]
    exact ⟨_, rfl, by simp [SameOutside], by simp, by simp [Chip.isInitialized], by simp, by simp [hf], by simp⟩

/-- Settles O55: ICW1 clears the mask, no effect within the sequence sets it, and the chip is not `Ready` there. -/
theorem maskIsClearDuringInitialization : Obligations.MaskIsClearDuringInitialization := by
  refine ⟨fun c b s hf => ?start, fun c s t hs hm h => ?keep, fun c line s hf hs hl => ?assertion⟩
  case start =>
    obtain ⟨t, ht, -, hchip, -⟩ := (icw1RestartsInitialization c b s hf).2
    exact ⟨t, ht, by rw [hchip], by rw [hchip]⟩
  case keep =>
    obtain ⟨i, es, heff, -⟩ := step_chip_effect h c
    exact heff.keeps_clear_mask hs hm
  case assertion =>
    exact exec_assertChip_of_not_ready hf (fun hready => by simp [hready] at hs) hl

/-- Settles O24: the reply is the flag, which tests the stage. -/
theorem queryReturnsTheFlag : Obligations.QueryReturnsTheFlag :=
  fun _ _ hf => ⟨decodeCall_of_route rfl (decode_packWord_8 ..), exec_eq_next hf rfl fun _ => execIsinit_next⟩

/-- Settles O27: each of the five forms begins with the check of its stages. -/
theorem dataWriteOfAnotherStageIsRefused : Obligations.DataWriteOfAnotherStageIsRefused := by
  intro c b s hf
  have refused {stages : List Stage} (h : (s.chip c).initStage ∉ stages) := running_atStage_of_not_mem hf h
  exact ⟨fun h => refused (by simpa using h) _, fun h => refused (by simpa using h) _,
    fun h => ⟨refused (by simpa using h) _, refused (by simpa using h) _⟩,
    fun hnew hready => refused (by simp [hnew, hready]) _⟩

/-- Settles O28: the stage decodes the write as ICW2, whose meaning writes its chip only. -/
theorem icw2ProgramsOffset : Obligations.Icw2ProgramsOffset := by
  intro c b s hf hs
  obtain ⟨hsame, hquiet⟩ :=
    begun_setChip_frame hf c { s.chip c with offset := b, initStage := .awaitingCascadeWord }
  exact ⟨fun hk => decodeCall_dataWrite hk (by rw [hs]; rfl), _, exec_icw2 hf hs b, hsame,
    State.setChip_chip_self .., by simp [Chip.isInitialized], hquiet⟩

/-- Settles O29: the stage decodes the write as ICW3, whose meaning writes its chip only. -/
theorem icw3ProgramsCascadeLine : Obligations.Icw3ProgramsCascadeLine := by
  intro c b s hf hs
  obtain ⟨hsame, hquiet⟩ := begun_setChip_frame hf c { s.chip c with cascadeLine := b, initStage := .awaitingMode }
  exact ⟨fun hk => decodeCall_dataWrite hk (by rw [hs]; rfl), _, exec_icw3 hf hs b, hsame,
    State.setChip_chip_self .., by simp [Chip.isInitialized], hquiet⟩

/-- Settles O31: either stage decodes the write as OCW1, whose meaning writes the mask only. -/
theorem ocw1WritesMask : Obligations.Ocw1WritesMask := by
  intro c b s hf hs
  obtain ⟨hsame, hquiet⟩ := begun_setChip_frame hf c { s.chip c with imr := b }
  exact ⟨fun hk => decodeCall_dataWrite hk (decodeDataWrite_ocw1 s.config c b hs), _, exec_ocw1 hf hs b, hsame,
    State.setChip_chip_self .., by simp [Chip.isInitialized], hquiet⟩

/-- Settles O32: the mask write of O31 keeps the stage, and there an assertion changes nothing, the reply being none
already. -/
theorem maskWriteBeforeInitialization : Obligations.MaskWriteBeforeInitialization := by
  intro c b line s hf hk hs hl
  obtain ⟨hd, t, ht, -, hchip, -, -, hft, hret⟩ := ocw1WritesMask c b s hf (.inl hs)
  have hst : (t.chip c).initStage = .notInitialized := by rw [hchip]; exact hs
  have hidle := exec_assertChip_of_not_ready hft (c := c) (by simp [hst]) hl
  rw [State.begun_eq_self hret] at hidle
  exact ⟨hd hk, t, ht, by rw [hchip], hst, hidle⟩

end Sys2Proof.Machine

/-! PROOFS, family 42_interrupt_protocol.md: what a chip's assertion and acknowledgment do in a running state, alone,
one after the other, and repeated. -/

namespace Sys2Proof.Machine

/-! ### The assertion, an equation per check (R140, R141) -/

/-- Chip `ch` accepts an assertion of `line`: it passes the four checks of R141. -/
structure Chip.Accepts (ch : Chip) (line : Byte) : Prop where
  inRange : line.toNat < 8
  ready : ch.initStage = .ready
  unmasked : bit ch.imr line.toNat = false
  fits : ch.offset.toNat + line.toNat ≤ 0xFF

theorem chipAssert_of_range {line : Byte} (h : 8 ≤ line.toNat) (c : ChipId) (s : State) :
    chipAssert c line s = s.raise .irqLineRange (some c) line.toNat := by
  simp [chipAssert, h]

section

variable {c : ChipId} {line : Byte} {s : State}

theorem chipAssert_of_masked (hl : line.toNat < 8) (hm : bit (s.chip c).imr line.toNat = true) :
    chipAssert c line s = s := by
  simp [chipAssert, Chip.masked, hl, hm]

theorem chipAssert_of_overflow (hl : line.toNat < 8) (hs : (s.chip c).initStage = .ready)
    (hm : bit (s.chip c).imr line.toNat = false) (hover : 0xFF < (s.chip c).offset.toNat + line.toNat) :
    chipAssert c line s = s.raise .vectorOverflow (some c) ((s.chip c).offset.toNat + line.toNat) := by
  simp [chipAssert, Chip.masked, Chip.vectorSum, hl, hs, hm, hover]

theorem chipAssert_of_accepts (h : (s.chip c).Accepts line) :
    chipAssert c line s = (s.setChip c { s.chip c with irr := (s.chip c).irr ||| lineBit line.toNat }).emit
      (.inject ((s.chip c).offset + line)) := by
  obtain ⟨hl, hs, hm, hfits⟩ := h
  have hover : (s.chip c).overflows line.toNat = false := overflows_eq_false.mpr hfits
  simp [chipAssert, Chip.masked, injectEvent_eq, hl, hs, hm, hover]

/-! ### The acknowledgment, in its two cases (R143, R144) -/

theorem chipAck_of_ackLine_none {v : Byte} (h : (s.chip c).ackLine v = none) :
    chipAck c v s = s.raise .ackNotPending (some c) v.toNat := by
  simp [chipAck, h]

theorem chipAck_of_ackLine_some {v : Byte} {n : Nat} (h : (s.chip c).ackLine v = some n) :
    chipAck c v s = s.setChip c { s.chip c with
      irr := (s.chip c).irr &&& ~~~(lineBit n), isr := (s.chip c).isr ||| lineBit n } := by
  simp [chipAck, h]

end

/-! ### The forms, from a running state -/

section

variable {s : State} (hf : s.fault = none) (c : ChipId)

include hf

theorem exec_assertChip (line : Byte) : exec (.assertChip c line) s = .next (chipAssert c line s.begun) :=
  exec_eq_next hf rfl fun _ => execAssertChip_next

theorem exec_assertChipRange (line : Byte) : exec (.assertChipRange c line) s = .next (chipAssert c line s.begun) :=
  exec_eq_next hf rfl fun _ => execAssertChipRange_next

theorem exec_ackChip (v : Byte) : exec (.ackChip c v) s = .next (chipAck c v s.begun) :=
  exec_eq_next hf rfl fun _ => execAckChip_next

end

/-- An accepted assertion with its frame: one bit of `irr`, one request (R141). -/
theorem exec_assertChip_of_accepts {c : ChipId} {line : Byte} {s : State} (hf : s.fault = none)
    (h : (s.chip c).Accepts line) :
    ∃ t, exec (.assertChip c line) s = .next t ∧ SameOutside c s t ∧
      t.chip c = { s.chip c with irr := (s.chip c).irr ||| lineBit line.toNat } ∧
      t.trace = s.trace ++ [.inject ((s.chip c).offset + line)] ∧ t.fault = none ∧ t.returned = none := by
  refine ⟨_, exec_assertChip hf c line, ?_⟩
  rw [chipAssert_of_accepts (by simpa using h)]
  simp [SameOutside, hf]

/-! ### One operation after another -/

/-- Line `i`'s bit set and cleared again: clear, whether it was set before or not. -/
theorem bit_or_and_not_lineBit (v : Byte) {i : Nat} (hi : i < 8) (j : Nat) :
    bit ((v ||| lineBit i) &&& ~~~(lineBit i)) j = (bit v j && decide (j ≠ i)) := by
  rw [bit_and_not_lineBit, bit_or_lineBit v hi]
  by_cases hj : j = i <;> simp [hj]

theorem SameOutside.trans {c : ChipId} {s t u : State} (hst : SameOutside c s t) (htu : SameOutside c t u) :
    SameOutside c s u := by
  obtain ⟨hchip, hconfig, hcalls⟩ := hst
  obtain ⟨hchip', hconfig', hcalls'⟩ := htu
  exact ⟨hchip'.trans hchip, hconfig'.trans hconfig, hcalls'.trans hcalls⟩

theorem execRepeat_succ {i : Instr} {s t : State} (h : exec i s = .next t) (n : Nat) :
    execRepeat (n + 1) i s = execRepeat n i t := by
  simp [execRepeat, h]

/-- Accepted assertions of one line in a row. By induction on their number: each leaves a chip that accepts the next
one, which finds the bit set already. -/
theorem execRepeat_assertChip_of_accepts (n : Nat) {c : ChipId} {line : Byte} {s : State} (hf : s.fault = none)
    (h : (s.chip c).Accepts line) :
    ∃ t, execRepeat (n + 1) (.assertChip c line) s = .next t ∧ SameOutside c s t ∧
      t.trace = s.trace ++ List.replicate (n + 1) (.inject ((s.chip c).offset + line)) ∧
      t.chip c = { s.chip c with irr := (s.chip c).irr ||| lineBit line.toNat } ∧ t.fault = none := by
  induction n generalizing s with
  | zero =>
    obtain ⟨t, ht, hsame, hchip, htrace, hft, -⟩ := exec_assertChip_of_accepts hf h
    exact ⟨t, execRepeat_succ ht 0, hsame, htrace, hchip, hft⟩
  | succ n ih =>
    obtain ⟨t, ht, hsame, hchip, htrace, hft, -⟩ := exec_assertChip_of_accepts hf h
    have hagain : (t.chip c).Accepts line := by
      obtain ⟨hl, hs, hm, hfits⟩ := h
      rw [hchip]
      exact ⟨hl, hs, hm, hfits⟩
    obtain ⟨u, hu, hsame', htrace', hchip', hfu⟩ := ih hft hagain
    refine ⟨u, (execRepeat_succ ht _).trans hu, hsame.trans hsame', ?trace, ?chip, hfu⟩
    case trace => rw [htrace', htrace, hchip, List.append_assoc, List.singleton_append, ← List.replicate_succ]
    case chip => rw [hchip', hchip, BitVec.or_assoc, BitVec.or_self]

/-! ### The obligations -/

/-- Settles O33, a check at a time. -/
theorem chipAssertionFollowsItsChecks : Obligations.ChipAssertionFollowsItsChecks := by
  refine fun c line s hf => ⟨fun hl => ?range, fun hl hs => exec_assertChip_of_not_ready hf hs hl,
    fun hl _ hm => ?masked, fun hl hs hm hover => ?overflow,
    fun hl hs hm hfits => exec_assertChip_of_accepts hf ⟨hl, hs, hm, hfits⟩⟩
  case range => rw [exec_assertChipRange hf, chipAssert_of_range hl, State.faultedWith]
  case masked => rw [exec_assertChip hf, chipAssert_of_masked hl (by simpa using hm)]
  case overflow =>
    rw [exec_assertChip hf, chipAssert_of_overflow hl (by simpa using hs) (by simpa using hm) (by simpa using hover),
      State.begun_chip, State.faultedWith]

/-- Settles O34: the vector names no pending line, or it names line `n`. -/
theorem chipAcknowledgmentMovesPendingBit : Obligations.ChipAcknowledgmentMovesPendingBit := by
  refine fun c v s hf => ⟨fun hbad => ?fault, fun n hn hv hpend => ⟨_, exec_ackChip hf c v, ?effect⟩⟩
  case fault =>
    have hnone : (s.begun.chip c).ackLine v = none := by simpa using ackLine_eq_none.mpr hbad
    rw [exec_ackChip hf, chipAck_of_ackLine_none hnone, State.faultedWith]
  case effect =>
    have hsome : (s.begun.chip c).ackLine v = some n := by simpa using ackLine_eq_some.mpr ⟨hv, hn, hpend⟩
    rw [chipAck_of_ackLine_some hsome, State.begun_chip]
    obtain ⟨hsame, hquiet⟩ := begun_setChip_frame hf c { s.chip c with
      irr := (s.chip c).irr &&& ~~~(lineBit n), isr := (s.chip c).isr ||| lineBit n }
    exact ⟨hsame, State.setChip_chip_self .., hquiet⟩

/-- Settles O35: the assertion sets the bit that O34's acknowledgment moves, and so the second one finds it clear. -/
theorem assertedLineIsAcknowledgedOnce : Obligations.AssertedLineIsAcknowledgedOnce := by
  intro c line s hf hl hs hm hfits
  have hvec : ((s.chip c).offset + line).toNat = (s.chip c).offset.toNat + line.toNat :=
    BitVec.toNat_add_of_lt (by omega)
  obtain ⟨t, ht, -, htc, -, hft, -⟩ := exec_assertChip_of_accepts hf ⟨hl, hs, hm, hfits⟩
  have hpend : bit (t.chip c).irr line.toNat = true := by simp [htc, bit_or_lineBit _ hl]
  obtain ⟨u, hu, -, huc, -, hfu, -⟩ :=
    (chipAcknowledgmentMovesPendingBit c _ t hft).2 line.toNat hl (by rw [hvec, htc]) hpend
  rw [htc] at huc
  have hirr (j : Nat) : bit (u.chip c).irr j = (bit (s.chip c).irr j && decide (j ≠ line.toNat)) := by
    rw [huc]
    exact bit_or_and_not_lineBit _ hl j
  have hisr (j : Nat) : bit (u.chip c).isr j = (bit (s.chip c).isr j || decide (j = line.toNat)) := by
    rw [huc]
    exact bit_or_lineBit _ hl j
  refine ⟨t, u, ht, hu, hfu, hirr, hisr, ?_⟩
  rw [← hvec]
  refine (chipAcknowledgmentMovesPendingBit c _ u hfu).1 (.inr (.inr ?_))
  have hoff : (u.chip c).offset = (s.chip c).offset := by rw [huc]
  rw [hoff, hvec, Nat.add_sub_cancel_left, hirr]
  simp

/-- Settles O36, by the induction of `execRepeat_assertChip_of_accepts`. -/
theorem everyAssertionRequestsOnce : Obligations.EveryAssertionRequestsOnce :=
  fun n _ _ _ hf hl hs hm hfits => execRepeat_assertChip_of_accepts n hf ⟨hl, hs, hm, hfits⟩

end Sys2Proof.Machine

/-! PROOFS, family 43_cascade.md: which chip a cascade operation goes to, and what it does to both chips. -/

namespace Sys2Proof.Machine

/-! ### The cascade's assertion, an equation per range of lines (R160, R161) -/

theorem cascadeAssert_of_range {line : Byte} (h : 16 ≤ line.toNat) (s : State) :
    cascadeAssert line s = s.raise .irqLineRange none line.toNat :=
  if_pos h

theorem cascadeAssert_of_low {line : Byte} (h : line.toNat < 8) (s : State) :
    cascadeAssert line s = chipAssert .master line s :=
  (if_neg (by omega)).trans (if_pos h)

theorem cascadeAssert_of_high {line : Byte} (hlow : 8 ≤ line.toNat) (hhigh : line.toNat ≤ 15) (s : State) :
    cascadeAssert line s =
      (chipAssert .master s.master.cascadeLine s).andThen (chipAssert .slave (line - 8#8)) :=
  (if_neg (by omega)).trans (if_neg (by omega))

/-! ### The acknowledgment's route (R163), and what an assertion hands back (R17) -/

/-- The chip an acknowledgment is routed to (R163). -/
theorem cascadeAck_of_routed {c : ChipId} {v : Byte} {s : State}
    (h : c = .slave ↔ s.slave.offset.toNat ≤ v.toNat) : cascadeAck v s = chipAck c v s := by
  cases c with
  | master => exact if_neg (by simpa using h)
  | slave => exact if_pos (by simpa using h)

/-- A chip's assertion hands nothing back to the host (R17). -/
@[simp] theorem chipAssert_returned (c : ChipId) (line : Byte) (s : State) :
    (chipAssert c line s).returned = s.returned := by
  rcases chipAssert_cases c line s with ⟨-, e⟩ | ⟨-, -, e⟩ | ⟨-, -, -, -, e⟩ | ⟨-, -, -, -, e⟩ <;> simp [e]

/-! ### The forms, from a running state -/

section

variable {s : State} (hf : s.fault = none)

include hf

theorem exec_assertRange (line : Byte) : exec (.assertRange line) s = .next (cascadeAssert line s.begun) :=
  exec_eq_next hf rfl fun _ => execAssertRange_next

theorem exec_assertLo (line : Byte) : exec (.assertLo line) s = .next (cascadeAssert line s.begun) :=
  exec_eq_next hf rfl fun _ => execAssertLo_next

theorem exec_assertHi (line : Byte) : exec (.assertHi line) s = .next (cascadeAssert line s.begun) :=
  exec_eq_next hf rfl fun _ => execAssertHi_next

theorem exec_ack (v : Byte) : exec (.ack v) s = .next (cascadeAck v s.begun) :=
  exec_eq_next hf rfl fun _ => execAck_next

/-- Op 4, whichever of its two rows the line falls in (R85, R140). -/
theorem exec_decodeAssertChip (c : ChipId) (line : Byte) :
    exec (decodeAssertChip c line) s = .next (chipAssert c line s.begun) := by
  unfold decodeAssertChip
  split
  · exact exec_assertChip hf c line
  · exact exec_assertChipRange hf c line

theorem exec_assertLo_eq_master {line : Byte} (h : line.toNat < 8) :
    exec (.assertLo line) s = exec (.assertChip .master line) s := by
  rw [exec_assertLo hf, exec_assertChip hf, cascadeAssert_of_low h]

theorem exec_ack_of_routed {c : ChipId} {v : Byte} (h : c = .slave ↔ s.slave.offset.toNat ≤ v.toNat) :
    exec (.ack v) s = exec (.ackChip c v) s := by
  rw [exec_ack hf, exec_ackChip hf, cascadeAck_of_routed (by simpa using h)]

end

/-! ### The obligations -/

/-- Settles O38: the two forms are one operation, and O33 says what it does where the master accepts. -/
theorem lowLinesGoToTheMaster : Obligations.LowLinesGoToTheMaster := by
  intro line s hf hl
  rw [exec_assertLo_eq_master hf hl]
  refine ⟨⟨_, exec_assertChip hf .master line, exec_assertChip hf .master line⟩, fun hs hm hfits => ?_⟩
  obtain ⟨t, ht, ⟨hother, hconfig, hcalls⟩, hchip, htrace, hft, hret⟩ :=
    exec_assertChip_of_accepts (c := .master) hf ⟨hl, hs, hm, hfits⟩
  exact ⟨t, ht, hchip, hother, htrace, hft, hret, hconfig, hcalls⟩

/-- Settles O39: the master's step, and the slave's after it unless the first raised a fault. -/
theorem highLinesGoToBothChips : Obligations.HighLinesGoToBothChips := by
  intro line s hf hlow hhigh
  have hhi : exec (.assertHi line) s = .next
      ((chipAssert .master s.master.cascadeLine s.begun).andThen (chipAssert .slave (line - 8#8))) := by
    rw [exec_assertHi hf, cascadeAssert_of_high hlow hhigh, State.begun_master]
  refine ⟨_, exec_decodeAssertChip hf .master _, fun hfault => ?faulted, fun hnone => ⟨_, hhi, ?running⟩⟩
  case faulted => rw [hhi, andThen_of_faulted hfault]
  case running => rw [andThen_of_running hnone, exec_assertChip hnone, State.begun_eq_self (by simp)]

/-- Settles O40: the two steps of O39, each accepted by its chip; the master's leaves the slave as it was. -/
theorem highLineEffectOnBothChips : Obligations.HighLineEffectOnBothChips := by
  intro line s hf hlow hhigh hcascade hready hunmasked hfits hready' hunmasked' hfits'
  have hline : (line - 8#8).toNat = line.toNat - 8 := BitVec.toNat_sub_of_le hlow
  obtain ⟨m, hm, -, hslave⟩ := highLinesGoToBothChips line s hf hlow hhigh
  rw [decodeAssertChip, if_pos hcascade] at hm
  obtain ⟨m', hm', ⟨hother, hconfig, hcalls⟩, hchip, htrace, hfm, -⟩ :=
    exec_assertChip_of_accepts (c := .master) hf ⟨hcascade, hready, hunmasked, hfits⟩
  obtain rfl : m' = m := by simpa [hm'] using hm
  replace hother : m'.chip .slave = s.slave := hother
  have haccepts : (m'.chip .slave).Accepts (line - 8#8) := by
    rw [hother]
    exact ⟨by omega, hready', by rwa [hline], by rwa [hline]⟩
  obtain ⟨t, ht, hslaveExec⟩ := hslave hfm
  obtain ⟨t', ht', ⟨hother', hconfig', hcalls'⟩, hchip', htrace', hft, hret⟩ :=
    exec_assertChip_of_accepts hfm haccepts
  obtain rfl : t' = t := by simpa [ht'] using hslaveExec
  rw [hother, hline] at hchip'
  rw [hother, htrace, List.append_assoc] at htrace'
  exact ⟨t', ht, hother'.trans hchip, hchip', htrace', hft, hret, hconfig'.trans hconfig, hcalls'.trans hcalls⟩

/-- Settles O42: the two routes of R163. -/
theorem acknowledgmentIsRoutedBySlaveOffset : Obligations.AcknowledgmentIsRoutedBySlaveOffset := by
  refine fun v s hf => ⟨fun hge => ?slave, fun hlt => ?master⟩
  case slave =>
    rw [exec_ack_of_routed (c := .slave) hf (by simpa using hge)]
    exact ⟨_, exec_ackChip hf .slave v, exec_ackChip hf .slave v⟩
  case master =>
    rw [exec_ack_of_routed (c := .master) hf (by simpa using hlt)]
    exact ⟨_, exec_ackChip hf .master v, exec_ackChip hf .master v⟩

/-- Settles O43: the chip-level acknowledgment of O34, on the chip the vector is routed to. -/
theorem routedAcknowledgmentMovesPendingBit : Obligations.RoutedAcknowledgmentMovesPendingBit := by
  intro v n s hf hn c hroute hv hpend
  rw [exec_ack_of_routed hf hroute]
  exact (chipAcknowledgmentMovesPendingBit c v s hf).2 n hn hv hpend

/-- Settles O37: the range check comes before any chip is touched. -/
theorem cascadeLineRangeFaults : Obligations.CascadeLineRangeFaults := by
  intro line s hf hl
  rw [exec_assertRange hf, cascadeAssert_of_range hl, State.faultedWith]

end Sys2Proof.Machine

/-! PROOFS, family 60_exceptions.md: a block that holds a fault record, and the fault of a cascade line above 7. -/

namespace Sys2Proof.Machine

/-! ### A faulted block (R180) -/

/-- Every form tests the fault state on entry, before its stage and its operands. -/
theorem exec_eq_running (i : Instr) : ∃ k, ∀ s, exec i s = running s k := by
  cases i <;> exact ⟨_, fun s => by rw [exec]; rfl⟩

theorem exec_of_faulted {s : State} {r : FaultRecord} (h : s.fault = some r) (i : Instr) :
    exec i s = .fault (.halted r) := by
  obtain ⟨k, hk⟩ := exec_eq_running i
  rw [hk, running_of_faulted h]

theorem step_of_faulted {s : State} {r : FaultRecord} (h : s.fault = some r) : step s = .fault (.halted r) := by
  simp [step, fetch, h]

/-! ### The obligations -/

/-- Settles O41: the master's range check (R140) faults first, and that fault skips the slave's step (R161). -/
theorem badCascadeLineFaults : Obligations.BadCascadeLineFaults := by
  intro line s hf hlow hhigh hcascade
  have hmaster : chipAssert .master s.master.cascadeLine s.begun =
      s.faultedWith .irqLineRange (some .master) s.master.cascadeLine.toNat :=
    chipAssert_of_range hcascade .master s.begun
  rw [exec_assertHi hf, cascadeAssert_of_high hlow hhigh, State.begun_master, hmaster,
    andThen_of_faulted (by simp [State.faultedWith])]

/-- Settles O10: neither the host's next call nor an operation is looked at once a fault is recorded. -/
theorem faultedBlockHasNoStep : Obligations.FaultedBlockHasNoStep :=
  fun _ _ h => ⟨step_of_faulted h, exec_of_faulted h⟩

end Sys2Proof.Machine

/-! PROOFS, family 70_reset_and_hazards.md: nothing becomes pending at construction, and the four writes of the
initialization sequence bring a chip to `Ready`. -/

namespace Sys2Proof.Machine

/-! ### A chip at construction (R210) -/

/-- A chip that was never initialized and has nothing pending stays without a pending line, and requests nothing: only a
`Ready` chip accepts an assertion, and ICW4 has a stage of its own (R141, R120). -/
theorem ChipEffect.quiet_of_notInitialized {i : Instr} {c : ChipId} {ch ch' : Chip} {es : List Event}
    (h : ChipEffect i c ch ch' es) (hs : ch.initStage = .notInitialized) (hirr : ch.irr = 0x00#8) :
    ch'.irr = 0x00#8 ∧ es = [] := by
  cases h with
  | unchanged | latchRequests | latchService | eoi | icw2 | icw3 | ocw1 => exact ⟨hirr, rfl⟩
  | icw1 => exact ⟨hirr, if_pos hirr⟩
  | icw4 _ hmode => simp [hs] at hmode
  | asserted _ _ _ _ hready => simp [hs] at hready
  | acknowledged n _ _ _ hpend => simp [hirr, bit] at hpend

/-! ### The state after a port write of one chip -/

/-- `s` after a port write of chip `c`: its call is taken and leaves `calls`, the chip holds `ch`, and `es` is emitted. -/
def State.wrote (s : State) (c : ChipId) (ch : Chip) (es : List Event) (calls : List HostCall) : State :=
  ((s.withCalls calls).begun.setChip c ch).emitAll es

section Wrote

variable (s : State) (c : ChipId) (ch : Chip) (es : List Event) (calls : List HostCall)

@[simp] theorem State.wrote_chip_self : (s.wrote c ch es calls).chip c = ch := by simp [State.wrote]
@[simp] theorem State.wrote_chip_other : (s.wrote c ch es calls).chip c.other = s.chip c.other := by
  simp [State.wrote]
@[simp] theorem State.wrote_config : (s.wrote c ch es calls).config = s.config := by simp [State.wrote]
@[simp] theorem State.wrote_trace : (s.wrote c ch es calls).trace = s.trace ++ es := by simp [State.wrote]
@[simp] theorem State.wrote_fault : (s.wrote c ch es calls).fault = s.fault := by simp [State.wrote]
@[simp] theorem State.wrote_hostCalls : (s.wrote c ch es calls).hostCalls = calls := by simp [State.wrote]
@[simp] theorem State.wrote_returned : (s.wrote c ch es calls).returned = none := by simp [State.wrote]

/-- Of two writes to one chip the second decides the registers and the calls to come; both emit. -/
theorem State.wrote_wrote (ch' : Chip) (es' : List Event) (calls' : List HostCall) :
    (s.wrote c ch es calls).wrote c ch' es' calls' = s.wrote c ch' (es ++ es') calls' := by
  apply State.ext_chip
  case hc =>
    intro d
    rcases eq_or_eq_other c d with rfl | rfl <;> simp
  all_goals simp

end Wrote

/-- A running block with parameters `k` whose host has `calls` yet to make. -/
structure State.Awaits (s : State) (k : Config) (calls : List HostCall) : Prop where
  running : s.fault = none
  config : s.config = k
  hostCalls : s.hostCalls = calls

theorem State.Awaits.wrote {s : State} {k : Config} {calls : List HostCall} (h : s.Awaits k calls) (c : ChipId)
    (ch : Chip) (es : List Event) (calls' : List HostCall) : (s.wrote c ch es calls').Awaits k calls' :=
  ⟨(s.wrote_fault ..).trans h.running, (s.wrote_config ..).trans h.config, s.wrote_hostCalls ..⟩

/-! ### The initialization command of R211 -/

theorem ne_zero_of_isSingleBit {b : Byte} (h : isSingleBit b = true) : b ≠ 0#8 := by
  rintro rfl
  cases h

/-- R7's `INIT | IC4` is an accepted initialization command, whether `IC4` is required or not (R101). -/
theorem icw1Byte_init_or_ic4 {k : Config} (hk : k.wf = true) : icw1Byte k (k.cmd.init ||| k.cmd.ic4) = true := by
  simp only [Config.wf, CmdEnc.wf, Bool.and_eq_true] at hk
  obtain ⟨⟨⟨⟨⟨⟨⟨⟨⟨hinit, hic4⟩, -⟩, -⟩, -⟩, -⟩, -⟩, -⟩, -⟩, -⟩ := hk
  have absorb (a b : Byte) : (a ||| b) &&& a = a := by ext j; simp +contextual
  have hi : (k.cmd.init ||| k.cmd.ic4) &&& k.cmd.init = k.cmd.init := absorb ..
  have h4 : (k.cmd.init ||| k.cmd.ic4) &&& k.cmd.ic4 = k.cmd.ic4 := by rw [BitVec.or_comm]; exact absorb ..
  simp [icw1Byte, hi, h4, ne_zero_of_isSingleBit hinit, ne_zero_of_isSingleBit hic4]

/-! ### The step of each write of the sequence (R211) -/

section InitializationSteps

variable {k : Config} {s : State} {c : ChipId} {b : Byte} {rest : List HostCall} (hk : k.wf = true)

include hk

/-- The first write, in every stage (R101). -/
theorem step_icw1 (h : s.Awaits k (.portWrite (commandPort k c) [b] :: rest)) (hb : icw1Byte k b = true) :
    step s = .next (s.wrote c { s.chip c with imr := 0x00#8, initStage := .awaitingOffset }
      (if (s.chip c).irr = 0x00#8 then [] else [.cancelAll]) rest) := by
  obtain ⟨hf, rfl, hh⟩ := h
  have hd := (icw1RestartsInitialization c b s hf).1 hk hb
  rw [step_of_decodeCall hf hh hd]
  refine exec_eq_next hf rfl fun t ht => ?_
  obtain ⟨-, rfl⟩ := execIcw1_next (b := b) ht
  refine ⟨hf, ?_⟩
  rw [State.withCalls_chip, State.wrote]
  split_ifs
  · rw [State.emitAll_nil]
  · rw [State.emit_eq_emitAll]

/-- The second write, to a chip that awaits its offset (R121). -/
theorem step_icw2 (h : s.Awaits k (.portWrite (dataPort k c) [b] :: rest))
    (hs : (s.chip c).initStage = .awaitingOffset) :
    step s = .next (s.wrote c { s.chip c with offset := b, initStage := .awaitingCascadeWord } [] rest) := by
  obtain ⟨hf, rfl, hh⟩ := h
  have hd := (icw2ProgramsOffset c b s hf hs).1 hk
  rw [step_of_decodeCall hf hh hd, exec_icw2 (by simpa using hf) (by simpa using hs), State.wrote,
    State.emitAll_nil, State.withCalls_chip]

/-- The third write, to a chip that awaits its cascade word (R122). -/
theorem step_icw3 (h : s.Awaits k (.portWrite (dataPort k c) [b] :: rest))
    (hs : (s.chip c).initStage = .awaitingCascadeWord) :
    step s = .next (s.wrote c { s.chip c with cascadeLine := b, initStage := .awaitingMode } [] rest) := by
  obtain ⟨hf, rfl, hh⟩ := h
  have hd := (icw3ProgramsCascadeLine c b s hf hs).1 hk
  rw [step_of_decodeCall hf hh hd, exec_icw3 (by simpa using hf) (by simpa using hs), State.wrote,
    State.emitAll_nil, State.withCalls_chip]

/-- The last write, to a chip that awaits its mode word and whose pending vectors fit (R123). -/
theorem step_icw4 (h : s.Awaits k (.portWrite (dataPort k c) [k.modeWord] :: rest))
    (hs : (s.chip c).initStage = .awaitingMode)
    (hfit : ∀ n, bit (s.chip c).irr n = true → (s.chip c).offset.toNat + n ≤ 0xFF) :
    step s = .next (s.wrote c { s.chip c with initStage := .ready }
      ((s.chip c).pendingLines.map (s.chip c).injectEvent) rest) := by
  obtain ⟨hf, rfl, hh⟩ := h
  have hd : decodeDataWrite s.config c (s.chip c).initStage.code s.config.modeWord = .ok (.icw4 c) := by
    rw [hs, decodeDataWrite_awaitingMode, if_pos rfl]
  rw [step_of_decodeCall hf hh (decodeCall_dataWrite hk hd), exec_icw4 (by simpa using hf) (by simpa using hs),
    finishInit_of_fit (by simpa using hfit), State.wrote, State.begun_chip, State.withCalls_chip]

/-- The four writes of R211 as one run: each leaves the stage the next one needs, and the pending lines stay. -/
theorem run_initialization {o l : Byte}
    (h : s.Awaits k (.portWrite (commandPort k c) [k.cmd.init ||| k.cmd.ic4] :: .portWrite (dataPort k c) [o] ::
      .portWrite (dataPort k c) [l] :: .portWrite (dataPort k c) [k.modeWord] :: rest))
    (hfit : ∀ n, bit (s.chip c).irr n = true → o.toNat + n ≤ 0xFF) :
    Host.Core.run Sys2Proof.core 4 s = .next (s.wrote c
      { s.chip c with imr := 0x00#8, offset := o, cascadeLine := l, initStage := .ready }
      ((if (s.chip c).irr = 0x00#8 then [] else [.cancelAll]) ++
        ((List.range 8).filter (bit (s.chip c).irr)).map (fun n => Event.inject (o + BitVec.ofNat 8 n))) rest) := by
  rw [run_succ 3 (step_icw1 hk h (icw1Byte_init_or_ic4 hk)),
    run_succ 2 (step_icw2 hk (h.wrote ..) (by simp)),
    run_succ 1 (step_icw3 hk ((h.wrote ..).wrote ..) (by simp)),
    run_succ 0 (step_icw4 hk (((h.wrote ..).wrote ..).wrote ..) (by simp) (by simpa using hfit))]
  simp only [Host.Core.run, State.wrote_wrote, State.wrote_chip_self, map_injectEvent_pendingLines, List.append_nil]

end InitializationSteps

/-! ### The obligations -/

/-- Settles O17, by the operation's effect on each chip: both are `NotInitialized` with nothing pending. -/
theorem nothingBecomesPendingAtConstruction : Obligations.NothingBecomesPendingAtConstruction := by
  intro k m r i t h
  obtain ⟨em, es, hm, hs, ht⟩ := (exec_effect h).chips
  obtain ⟨hmirr, rfl⟩ := hm.quiet_of_notInitialized rfl rfl
  obtain ⟨hsirr, rfl⟩ := hs.quiet_of_notInitialized rfl rfl
  exact ⟨hmirr, hsirr, ht⟩

/-- Settles O56: the run is one write of the chip, whose fields are read off. -/
theorem initializationSequenceReachesReady : Obligations.InitializationSequenceReachesReady := by
  intro c o l s rest hf hk hh hfit
  have hfit (n : Nat) (hn : bit (s.chip c).irr n = true) := hfit n (lt_of_bit hn) hn
  exact ⟨_, run_initialization hk ⟨hf, rfl, hh⟩ hfit, State.wrote_hostCalls .., State.wrote_config ..,
    State.wrote_chip_self .., State.wrote_chip_other .., (State.wrote_fault ..).trans hf,
    (State.wrote_trace ..).trans (List.append_assoc ..).symm⟩

end Sys2Proof.Machine
